-- ==== Sys2Proof/Word.lean ====
section
/-! DEFINITION. The two value types of the block (R9): every value is an unsigned integer of a fixed width. -/

namespace Sys2Proof

/-- A 16-bit unsigned value, the payload of a frame and the width of an opcode (R9). -/
abbrev Word := BitVec 16

/-- An 8-bit unsigned value, one byte on the wire (R9). -/
abbrev Byte := BitVec 8

/-- A 7-bit peripheral address of the I2C bus (R60, R68). -/
abbrev BusAddress := BitVec 7

end Sys2Proof
end

