-- ==== Sys2Proof/Config.lean ====
section
/-! DEFINITION. What is fixed before reset (the parameters of R7) and what the environment chooses (the draws of R10,
R11 and R249). An OPEN parameter and a draw are opaque constants here: nothing can evaluate them. -/

namespace Sys2Proof

/-- The `Measured` record: 8 words, word 0 first on the wire (R30). -/
structure Measured where
  pm1_0 : Word
  pm2_5 : Word
  pm4_0 : Word
  pm10_0 : Word
  humidity : Word
  temperature : Word
  vocIndex : Word
  noxIndex : Word
deriving DecidableEq, Repr, Inhabited

/-- The `Raw` record: 4 words, word 0 first on the wire (R30). -/
structure Raw where
  humidity : Word
  temperature : Word
  vocRaw : Word
  noxRaw : Word
deriving DecidableEq, Repr, Inhabited

/-- The `RawMystery` record: 4 words, words 2 and 3 reserved (R30, R89). -/
structure RawMystery where
  humidity : Word
  temperature : Word
  mystery1 : Word
  mystery2 : Word
deriving DecidableEq, Repr, Inhabited

/-- The parameters of R7 that have no fixed value in every configuration. They are fixed before reset and no step
changes them (R8). The machine holds them in `State.cfg`, read-only (log 1). -/
structure Params where
  /-- `I2C_ADDR`, the one bus address of the block (R60, R68). -/
  i2cAddr : BusAddress
  /-- `PM25_BASELINE`. -/
  pm25Baseline : Word
  /-- `PM25_STEP`. -/
  pm25Step : Word
  /-- `PM25_CEILING`. -/
  pm25Ceiling : Word
  /-- `PM25_INIT`, the reset value of `emu.pm25` (R27). -/
  pm25Init : Word
  /-- `READY_FLAG`, 0 or 1; this hardware takes 0 (R7, R131). -/
  readyFlag : Word
  /-- `REC_MEAS_PM1_0`. -/
  recMeasPm1_0 : Word
  /-- `REC_MEAS_PM4_0`. -/
  recMeasPm4_0 : Word
  /-- `REC_MEAS_PM10_0`. -/
  recMeasPm10_0 : Word
  /-- `REC_MEAS_HUM`. -/
  recMeasHum : Word
  /-- `REC_MEAS_TEMP`. -/
  recMeasTemp : Word
  /-- `REC_MEAS_VOC`. -/
  recMeasVoc : Word
  /-- `REC_MEAS_NOX`. -/
  recMeasNox : Word
  /-- `REC_RAW_HUM`, `REC_RAW_TEMP`, `REC_RAW_VOC`, `REC_RAW_NOX`. -/
  recRaw : Raw
  /-- `REC_MYST_HUM`, `REC_MYST_TEMP`, `REC_MYST_M1`, `REC_MYST_M2`. -/
  recMyst : RawMystery
  /-- `ARB_ENABLE` (R177). -/
  arbEnable : Bool
  /-- `IDLE_MIN`, in sample periods (R174). -/
  idleMin : Nat
  /-- `SETTLE_TICKS`, a lower bound in abstract time units; the untimed model reads it nowhere (R193, R276; log 12). -/
  settleTicks : Nat
  /-- `RESPECT_READY` (R205). -/
  respectReady : Bool
  /-- `SAFE_READY_VALUE` (R206). -/
  safeReadyValue : Word
deriving DecidableEq, Repr

/-- The constraints every admissible configuration meets: `PM25_BASELINE <= PM25_CEILING`, and `READY_FLAG` is 0 or 1
(R7, R265). -/
def Params.admissible (p : Params) : Bool :=
  decide (p.pm25Baseline.toNat ≤ p.pm25Ceiling.toNat) && decide (p.readyFlag.toNat ≤ 1)

/-- The address a bus transaction carries: the block's own address `I2C_ADDR`, or a 7-bit address written out.
DESIGN CHOICE, safe (log 18): `own` names the OPEN value without knowing it. -/
inductive BusAddr where
  | own
  | literal (a : BusAddress)
deriving DecidableEq, Repr, Inhabited

/-- Who answers a transaction the logger issues (R200, R216). -/
inductive BusTarget where
  /-- The transport: `ok` is the write status, `data` the bytes a read returns. All are draws (R200). -/
  | transport (ok : Bool) (data : List Byte)
  /-- An emulator unit of this block, with no other master's traffic intervening (R216). -/
  | emulator
deriving DecidableEq, Repr, Inhabited

/-- The draws one turn of `LOG` may use: a sample of the clock-line sense input `scl_sense` (R171) and the answer to
the transaction it issues (R200). A turn that needs none ignores them. -/
structure LogDraw where
  sense : Bool
  target : BusTarget
deriving DecidableEq, Repr, Inhabited

/-- What the environment does at one step boundary (R11, R12, R249): a transaction on the bus, a turn given to
`EMU.TICK`, a turn given to `LOG`, or the reset of one unit (R260; log 8). -/
inductive Input where
  /-- A write transaction that carries `bytes` (R81, R120). -/
  | cmdWrite (addr : BusAddr) (bytes : List Byte)
  /-- A read transaction that asks for `k` bytes (R150). -/
  | busRead (addr : BusAddr) (k : Nat)
  /-- A turn of the polling context `EMU.TICK` (R155, R156). -/
  | tick
  /-- A turn of the logger `LOG` (R215). -/
  | logger (draw : LogDraw)
  /-- The emulator unit resets (R260, R261). -/
  | resetEmu
  /-- The logger unit resets (R260, R262). -/
  | resetLog
deriving DecidableEq, Repr, Inhabited

/-- The environment's choice of the input at step `n`, where the script has fixed none: a draw, under no law (R10,
R11). -/
opaque Config.environment : Nat → Input

/-- The byte at position `j` of a bus read in step `n` where the emulator delivers no data: a draw, any value (R151,
R152). -/
opaque Config.freeByte : Nat → Nat → Byte

/-- OPEN: `I2C_ADDR` (D14). -/
opaque Config.i2cAddr : BusAddress
/-- OPEN: one of the two values `PM25_BASELINE` and `PM25_CEILING` are made of (D9; log 1). -/
opaque Config.pm25BoundA : Word
/-- OPEN: the other of the two values `PM25_BASELINE` and `PM25_CEILING` are made of (D9; log 1). -/
opaque Config.pm25BoundB : Word
/-- OPEN: `PM25_STEP` (D9). -/
opaque Config.pm25Step : Word
/-- OPEN: `PM25_INIT` (D10). -/
opaque Config.pm25Init : Word
/-- OPEN: `REC_MEAS_PM1_0` (D13). -/
opaque Config.recMeasPm1_0 : Word
/-- OPEN: `REC_MEAS_PM4_0` (D13). -/
opaque Config.recMeasPm4_0 : Word
/-- OPEN: `REC_MEAS_PM10_0` (D13). -/
opaque Config.recMeasPm10_0 : Word
/-- OPEN: `REC_MEAS_HUM` (D13). -/
opaque Config.recMeasHum : Word
/-- OPEN: `REC_MEAS_TEMP` (D13). -/
opaque Config.recMeasTemp : Word
/-- OPEN: `REC_MEAS_VOC` (D13). -/
opaque Config.recMeasVoc : Word
/-- OPEN: `REC_MEAS_NOX` (D13). -/
opaque Config.recMeasNox : Word
/-- OPEN: the four words of the raw record (D13). -/
opaque Config.recRaw : Raw
/-- OPEN: the four words of the raw-mystery record (D13). -/
opaque Config.recMyst : RawMystery
/-- OPEN: `ARB_ENABLE` (D16). -/
opaque Config.arbEnable : Bool
/-- OPEN: `IDLE_MIN` (D15). -/
opaque Config.idleMin : Nat
/-- OPEN: `SETTLE_TICKS` (D17). -/
opaque Config.settleTicks : Nat
/-- OPEN: `RESPECT_READY` (D20). -/
opaque Config.respectReady : Bool
/-- OPEN: `SAFE_READY_VALUE` (D20). -/
opaque Config.safeReadyValue : Word

/-- The configuration the integrator fixes before reset (R265): every OPEN parameter an opaque constant, `READY_FLAG`
the value the spec gives (R7). The baseline is the lesser and the ceiling the greater of two free words, which reaches
exactly the pairs that R7's constraint admits (log 1). -/
def Config.chosen : Params where
  i2cAddr := Config.i2cAddr
  pm25Baseline := if Config.pm25BoundA.toNat ≤ Config.pm25BoundB.toNat then Config.pm25BoundA else Config.pm25BoundB
  pm25Step := Config.pm25Step
  pm25Ceiling := if Config.pm25BoundA.toNat ≤ Config.pm25BoundB.toNat then Config.pm25BoundB else Config.pm25BoundA
  pm25Init := Config.pm25Init
  readyFlag := 0
  recMeasPm1_0 := Config.recMeasPm1_0
  recMeasPm4_0 := Config.recMeasPm4_0
  recMeasPm10_0 := Config.recMeasPm10_0
  recMeasHum := Config.recMeasHum
  recMeasTemp := Config.recMeasTemp
  recMeasVoc := Config.recMeasVoc
  recMeasNox := Config.recMeasNox
  recRaw := Config.recRaw
  recMyst := Config.recMyst
  arbEnable := Config.arbEnable
  idleMin := Config.idleMin
  settleTicks := Config.settleTicks
  respectReady := Config.respectReady
  safeReadyValue := Config.safeReadyValue

end Sys2Proof
end

