-- ==== Sys2Proof/Machine/State.lean ====
section
/-! DEFINITION. The state of both units (R20 to R50), the outputs, the inputs fixed so far, and the reset values. -/

namespace Sys2Proof.Machine

/-- Why a step stops. Each fault is the model's, and each is reached only from a state that no run reaches, so each is
safe (the model stops where the spec gives no effect, or says that a model must fault). -/
inductive Fault where
  /-- Raised by a command step or a bus read that finds `emu.fsm = 0b11` (R23: "A model that finds it must fault").
  Safe. -/
  | unusedFsm
  /-- Raised by a bus read that finds `emu.fsm = Dispatching` at a step boundary: R24 says it is never visible there and
  R150 gives a read no meaning in it. Safe. -/
  | dispatchingVisible
  /-- Raised by a turn of `LOG` that finds `log.phase = 7` (R40: "A model that finds it must fault"). Safe. -/
  | unusedPhase
  /-- Raised by a turn of `LOG` in a combination of `log.phase`, `log.rd` and `log.idleCount` in which no rule of R172
  to R210 enables a step, or in which more than one would. Safe. -/
  | noLoggerStep
  /-- Raised by a read of a buffer byte or of a register that holds no value (10_state.md, its opening: "a model must
  fault on any read of it"). Safe. -/
  | noValue
  /-- Raised by an access to a buffer index outside 0 to 23, which does not exist (R60). Safe. -/
  | badIndex
  /-- Raised by a completed request with another number of words than the record register it goes to (R207 to R209
  ask for 8, 4 and 4). Safe. -/
  | recordLength
deriving DecidableEq, Repr

/-- What the model gives no meaning. -/
inductive Refusal where
  /-- Raised by an arm of `exec` that has no meaning yet; no arm uses it. Safe. -/
  | notModelled (mnemonic : String)
  /-- Raised by a request for more than `MAX_WORDS` words (R190: "A model refuses any other `N`"). Safe. -/
  | requestTooLong
deriving DecidableEq, Repr

/-- `emu.fsm`, a 2-bit register: one constructor for each of its four codes (R23). -/
inductive EmuFsm where
  /-- `Idle`, 0b00: no buffered response. -/
  | idle
  /-- `Dispatching`, 0b01: inside a command step only (R24). -/
  | dispatching
  /-- `ReadyToSend`, 0b10: TxBuffer holds one or more frames. -/
  | readyToSend
  /-- 0b11: no rule writes it. -/
  | unused
deriving DecidableEq, Repr

/-- `log.phase`, a 3-bit register: one constructor for each of its eight codes (R40). -/
inductive LogPhase where
  | cycleStart
  | arbWait
  | readyCheck
  | readMeas
  | readRaw
  | readMyst
  | cycleEnd
  /-- 7: no rule writes it. -/
  | unused
deriving DecidableEq, Repr

/-- `log.rd`, a 2-bit register: one constructor for each of its four codes (R41). -/
inductive ReaderState where
  /-- `RD_IDLE`, 0: no request in progress. -/
  | idle
  /-- `RD_WRITE`, 1: the next step issues the command write. -/
  | write
  /-- `RD_SETTLE`, 2: waiting out the settle delay. -/
  | settle
  /-- `RD_READ`, 3: the next step issues the read and validates it. -/
  | read
deriving DecidableEq, Repr

/-- The errors of a request (R44). -/
inductive ProtocolError where
  | transmitError
  | shortRead
  | checksumError
  | incompleteMessage
deriving DecidableEq, Repr

/-- `log.result`: `Ok(words)` or `Err(e)` (R44). -/
inductive RequestResult where
  | ok (words : List Word)
  | err (e : ProtocolError)
deriving DecidableEq, Repr

/-- One event with its information (R231 to R235). -/
inductive Event where
  /-- Info: the opcode (R232). -/
  | unrecognizedCommand (op : Word)
  /-- Info: the requested byte count (R233). -/
  | prematureRead (k : Nat)
  /-- Info: `log.cmd` (R234). -/
  | transmitError (cmd : Word)
  /-- Info: `log.cmd`, `log.rxCount` (R234). -/
  | shortRead (cmd : Word) (rxCount : BitVec 5)
  /-- Info: `log.cmd`, the index of the first failing frame (R234). -/
  | checksumError (cmd : Word) (frame : Nat)
  /-- Info: `log.cmd`, the number of words decoded (R234). -/
  | incompleteMessage (cmd : Word) (decoded : Nat)
  /-- Info: the word read (R235). -/
  | notReady (w : Word)
deriving DecidableEq, Repr

/-- One entry of the record output, 16 words (R213). -/
structure Record where
  meas : Measured
  raw : Raw
  myst : RawMystery
deriving DecidableEq, Repr

/-- A transaction the logger issues (R11, R191, R194). -/
inductive BusTx where
  | write (addr : BusAddress) (bytes : List Byte)
  | read (addr : BusAddress) (count : Nat)
deriving DecidableEq, Repr

/-- A buffer memory as its written bytes, indices strictly rising; an unlisted index holds no value (R25, R43, R60;
log 7). -/
abbrev Memory := List Host.Cell

/-- The emulator unit (R23 to R31). -/
structure Emu where
  /-- `emu.fsm` (R23). -/
  fsm : EmuFsm
  /-- `emu.tx`, the TxBuffer (R25). -/
  tx : Memory
  /-- `emu.txLen`, the number of valid frames (R25). -/
  txLen : BitVec 4
  /-- `emu.pm25`, `pm2_5Counter` (R27). -/
  pm25 : Word
  /-- `emu.tickPending` (R28). -/
  tickPending : Bool
  /-- `emu.events`, oldest first (R31). -/
  events : List Event
  /-- The bytes the last bus read returned to the master (`return out`, R150). The model's own output (log 10). -/
  busOut : List Byte
deriving DecidableEq, Repr

/-- Which registers hold a value: the spec's "holds no value" at reset (R42, R44, R45; log 6). -/
structure Written where
  /-- `log.cmd` and `log.nwords`, which R190 writes together. -/
  request : Bool
  /-- `log.result`. -/
  result : Bool
  /-- `log.meas`. -/
  meas : Bool
  /-- `log.raw`. -/
  raw : Bool
  /-- `log.myst`. -/
  myst : Bool
deriving DecidableEq, Repr

/-- The logger unit (R40 to R47). -/
structure Log where
  /-- `log.phase` (R40). -/
  phase : LogPhase
  /-- `log.rd` (R41). -/
  rd : ReaderState
  /-- `log.cmd` (R42). -/
  cmd : Word
  /-- `log.nwords` (R42). -/
  nwords : BitVec 4
  /-- `log.rx`, the receive buffer (R43). -/
  rx : Memory
  /-- `log.rxCount` (R43). -/
  rxCount : BitVec 5
  /-- `log.result` (R44). -/
  result : RequestResult
  /-- `log.meas` (R45). -/
  meas : Measured
  /-- `log.raw` (R45). -/
  raw : Raw
  /-- `log.myst` (R45). -/
  myst : RawMystery
  /-- `log.idleCount`, 0 to `IDLE_MIN` (R46). -/
  idleCount : Nat
  /-- `log.events`, oldest first (R47). -/
  events : List Event
  /-- `log.records`, oldest first (R47). -/
  records : List Record
  /-- The transactions the logger has issued, oldest first (R191, R194). The model's own output (log 10). -/
  issued : List BusTx
  /-- The marks "holds a value" (log 6). -/
  written : Written
deriving DecidableEq, Repr

/-- The environment's part: the inputs fixed so far, next first, and the number of steps taken, which indexes the
draws. The model's own (log 2). -/
structure Env where
  script : List Input
  steps : Nat
deriving DecidableEq, Repr

/-- The whole block: the configuration (read-only, R8), the two units, which share no register (R21, R70), and the
environment's part. -/
structure State where
  cfg : Params
  emu : Emu
  log : Log
  env : Env
deriving DecidableEq, Repr

/-- The emulator right after its reset (R50, R261). -/
def Emu.reset (p : Params) : Emu where
  fsm := .idle
  tx := []
  txLen := 0
  pm25 := p.pm25Init
  tickPending := false
  events := []
  busOut := []

/-- The logger right after its reset (R50, R262). The registers that hold no value are marked so; the values under the
marks are DESIGN CHOICE (log 6). -/
def Log.reset : Log where
  phase := .cycleStart
  rd := .idle
  cmd := 0
  nwords := 0
  rx := []
  rxCount := 0
  result := .ok []
  meas := ⟨0, 0, 0, 0, 0, 0, 0, 0⟩
  raw := ⟨0, 0, 0, 0⟩
  myst := ⟨0, 0, 0, 0⟩
  idleCount := 0
  events := []
  records := []
  issued := []
  written := ⟨false, false, false, false, false⟩

/-- Both units right after reset, under a configuration fixed before it (R260). -/
def State.resetWith (p : Params) : State where
  cfg := p
  emu := Emu.reset p
  log := Log.reset
  env := { script := [], steps := 0 }

/-- The machine right after reset, under the integrator's configuration (R260, R265). -/
def State.reset : State := State.resetWith Config.chosen

end Sys2Proof.Machine
end

