-- ==== Sys2Proof/Machine/Ops.lean ====
section
/-! DEFINITION. The shared operations: sequencing of outcomes, the two units' updates, the event outputs (R231, the
block's only exception mechanism: it has no traps and no return from one, R230, R240), the buffer memories (R10, R60),
bus addressing (R68) and the next input (R11, R12). -/

namespace Sys2Proof.Machine

/-- The outcome of a part of a step: a value, a fault or a refusal. -/
abbrev Result (α : Type) := Host.Outcome α Fault Refusal

/-- Goes on with the value of a part of a step, and stops where the part stops. -/
def andThen {α β : Type} (o : Result α) (f : α → Result β) : Result β :=
  match o with
  | .next a => f a
  | .fault r => .fault r
  | .refused r => .refused r

/-- The state with another emulator unit. -/
def setEmu (e : Emu) (s : State) : State := { s with emu := e }

/-- The state with another logger unit. -/
def setLog (l : Log) (s : State) : State := { s with log := l }

/-- `raise E(info)` by an agent of the emulator: appends to `emu.events` and goes on (R10, R231). -/
def raiseEmu (ev : Event) (s : State) : State := setEmu { s.emu with events := s.emu.events ++ [ev] } s

/-- `raise E(info)` by the logger: appends to `log.events` and goes on (R10, R231). -/
def raiseLog (ev : Event) (s : State) : State := setLog { s.log with events := s.log.events ++ [ev] } s

/-- The 8-bit code of an event (R232 to R235). -/
def eventCode : Event → Byte
  | .unrecognizedCommand _ => 0x01
  | .prematureRead _ => 0x02
  | .transmitError _ => 0x10
  | .shortRead _ _ => 0x11
  | .checksumError _ _ => 0x12
  | .incompleteMessage _ _ => 0x13
  | .notReady _ => 0x20

/-- The code of `emu.fsm` (R23). -/
def fsmCode : EmuFsm → BitVec 2
  | .idle => 0b00
  | .dispatching => 0b01
  | .readyToSend => 0b10
  | .unused => 0b11

/-- The code of `log.phase` (R40). -/
def phaseCode : LogPhase → BitVec 3
  | .cycleStart => 0
  | .arbWait => 1
  | .readyCheck => 2
  | .readMeas => 3
  | .readRaw => 4
  | .readMyst => 5
  | .cycleEnd => 6
  | .unused => 7

/-- The code of `log.rd` (R41). -/
def readerCode : ReaderState → BitVec 2
  | .idle => 0
  | .write => 1
  | .settle => 2
  | .read => 3

/-- `TX_CAP_FRAMES` and `MAX_WORDS` (R7). -/
def maxWords : Nat := 8

/-- The size of each buffer memory, `TX_CAP_FRAMES * 3` bytes, indices 0 to 23 (R25, R43, R60). A frame has 3 bytes,
`FRAME_BYTES` (R7). -/
def bufferBytes : Nat := 24

/-- What a buffer holds at an index: a byte, or no value (R25, R43). -/
def byteAt : Memory → Nat → Option Byte
  | [], _ => none
  | (b, v) :: m, a => if a = b then some v else byteAt m a

/-- The buffer with byte `v` at index `a`, in canonical form. -/
def setByte : Memory → Nat → Byte → Memory
  | [], a, v => [(a, v)]
  | (b, u) :: m, a, v =>
    if a < b then (a, v) :: (b, u) :: m
    else if a = b then (a, v) :: m
    else (b, u) :: setByte m a v

/-- The indices of a buffer's entries rise strictly. -/
def Memory.rising : Memory → Bool
  | [] => true
  | [_] => true
  | (a, _) :: (b, v) :: m => decide (a < b) && Memory.rising ((b, v) :: m)

/-- The one canonical form of a buffer: indices strictly rising, each an index that exists (R60). -/
def Memory.wf (m : Memory) : Bool := Memory.rising m && m.all (fun c => decide (c.1 < bufferBytes))

/-- `MemRead(m, a, 1)`: faults where the index does not exist (R60) and where the byte holds no value (R25, R43). -/
def readByte (m : Memory) (a : Nat) : Result Byte :=
  if a < bufferBytes then
    match byteAt m a with
    | some v => .next v
    | none => .fault .noValue
  else .fault .badIndex

/-- `MemRead(m, a, n)`, the bytes from index `a` on (R10). -/
def memRead (m : Memory) : Nat → Nat → Result (List Byte)
  | _, 0 => .next []
  | a, n + 1 => andThen (readByte m a) fun v => andThen (memRead m (a + 1) n) fun vs => .next (v :: vs)

/-- `MemWrite(m, a, n, v)`, the `n` bytes of `v` from index `a` on, in the order given (R10, R61). -/
def memWrite (m : Memory) : Nat → List Byte → Result Memory
  | _, [] => .next m
  | a, v :: vs => if a < bufferBytes then memWrite (setByte m a v) (a + 1) vs else .fault .badIndex

/-- Whether a transaction's address is the block's own, `I2C_ADDR`; transactions to other addresses are not events of
either unit (R68). -/
def addressesBlock (p : Params) : BusAddr → Bool
  | .own => true
  | .literal a => a == p.i2cAddr

/-- The input of the next step: the head of the script, or a draw where the script has fixed none (R11, R12; log 2). -/
def nextInput (s : State) : Input :=
  match s.env.script with
  | i :: _ => i
  | [] => Config.environment s.env.steps

/-- The state once its next input has been taken: the script without its head, the step counted. -/
def consumeInput (s : State) : State := { s with env := { script := s.env.script.tail, steps := s.env.steps + 1 } }

end Sys2Proof.Machine
end

