-- ==== Sys2Proof/Machine/Flags.lean ====
section
/-! DEFINITION. The block's flags: `emu.tickPending` and the ready flag. It has no arithmetic flags and no condition
codes (R29). -/

namespace Sys2Proof.Machine

/-- Sets `emu.tickPending`, a single slot: set again, it stays 1 (R28, R136). -/
def setTick (s : State) : State := setEmu { s.emu with tickPending := true } s

/-- Whether a ready word read by the logger is the configured "safe to read" state, a full 16-bit compare (R29,
R206). -/
def safeToRead (p : Params) (w : Word) : Bool := w == p.safeReadyValue

/-- The counter after a consumed tick: a 17-bit sum, and the baseline where it exceeds the ceiling (R110, R155). -/
def tickCounter (p : Params) (x : Word) : Word :=
  let sum : BitVec 17 := x.setWidth 17 + p.pm25Step.setWidth 17
  if p.pm25Ceiling.setWidth 17 < sum then p.pm25Baseline else sum.setWidth 16

/-- Whether `log.idleCount` has reached `IDLE_MIN`, the monitor's clearance (R174). -/
def cleared (s : State) : Bool := s.log.idleCount == s.cfg.idleMin

end Sys2Proof.Machine
end

