-- ==== Sys2Proof/Syntax.lean ====
section
/-! DEFINITION. The commands of the block, one constructor per row of the opcode table (R84). A command has no operands
(R87); the fallback row carries the opcode it was selected by, which its event reports (R138). -/

namespace Sys2Proof

/-- A 16-bit command of format `CMD16` (R80, R84). -/
inductive Instr where
  /-- `START_MEASUREMENT`, opcode 0x0021 (R130). -/
  | startMeasurement
  /-- `READ_DATA_READY`, opcode 0x0202 (R131). -/
  | readDataReady
  /-- `READ_MEASURED`, opcode 0x03C4 (R133). -/
  | readMeasured
  /-- `READ_RAW`, opcode 0x03D2 (R134). -/
  | readRaw
  /-- `READ_RAW_MYSTERY`, opcode 0x03F5 (R136). -/
  | readRawMystery
  /-- `UNRECOGNIZED`, any other opcode `op` (R138). -/
  | unrecognized (op : Word)
deriving DecidableEq, Repr

end Sys2Proof
end

