-- ==== Sys2Proof/Decode.lean ====
section
/-! DEFINITION. From the bytes of a write transaction to a command (R62, R80, R81, R84), and back. -/

namespace Sys2Proof

/-- Opcode of `START_MEASUREMENT` (R84). -/
def opStartMeasurement : Word := 0x0021
/-- Opcode of `READ_DATA_READY` (R84). -/
def opReadDataReady : Word := 0x0202
/-- Opcode of `READ_MEASURED` (R84). -/
def opReadMeasured : Word := 0x03C4
/-- Opcode of `READ_RAW` (R84). -/
def opReadRaw : Word := 0x03D2
/-- Opcode of `READ_RAW_MYSTERY` (R84). -/
def opReadRawMystery : Word := 0x03F5

/-- The opcodes of the five named rows of R84. -/
def namedOpcodes : List Word :=
  [opStartMeasurement, opReadDataReady, opReadMeasured, opReadRaw, opReadRawMystery]

/-- `w[15:8]`, the byte sent first (R61). -/
def highByte (w : Word) : Byte := w.extractLsb' 8 8

/-- `w[7:0]`, the byte sent second (R61). -/
def lowByte (w : Word) : Byte := w.extractLsb' 0 8

/-- `(b0 << 8) | b1`, as 16 bits (R61, R62, R87). -/
def wordOf (b0 b1 : Byte) : Word := (b0.setWidth 16 <<< 8) ||| b1.setWidth 16

/-- The row of R84 an opcode selects. The full 16 bits are matched (mask 0xFFFF), and the fallback row applies only
where no named row does (R84, R86). -/
def decodeOpcode (op : Word) : Instr :=
  if op = opStartMeasurement then .startMeasurement
  else if op = opReadDataReady then .readDataReady
  else if op = opReadMeasured then .readMeasured
  else if op = opReadRaw then .readRaw
  else if op = opReadRawMystery then .readRawMystery
  else .unrecognized op

/-- Why a write transaction carries no command. -/
inductive NotACommand where
  /-- The write carries no byte or one byte: it is ignored (R81). -/
  | tooShort
deriving DecidableEq, Repr

/-- The command a write transaction carries: its first two bytes are the opcode, most significant first, and bytes
from the third on are ignored; a write of fewer than two bytes is no command (R62, R80, R81). -/
def decode : List Byte → Except NotACommand Instr
  | b0 :: b1 :: _ => .ok (decodeOpcode (wordOf b0 b1))
  | _ => .error .tooShort

/-- The opcode of a command (R84). -/
def encodeOpcode : Instr → Word
  | .startMeasurement => 0x0021
  | .readDataReady => 0x0202
  | .readMeasured => 0x03C4
  | .readRaw => 0x03D2
  | .readRawMystery => 0x03F5
  | .unrecognized op => op

/-- The two bytes of a command on the wire, `opcode[15:8]` first (R80). -/
def encode (i : Instr) : List Byte := [highByte (encodeOpcode i), lowByte (encodeOpcode i)]

/-- The wire bytes of the instruction whose bits, numbered as the opcode table numbers them, are `w`: the table's word
is the 16-bit opcode, bit 0 its least significant bit; every bit from `nbits` on is 0; the wire carries bits 15..8
first (R80; log 17). -/
def tableWordBytes (nbits w : Nat) : List Byte :=
  [BitVec.ofNat 8 (w % 2 ^ nbits / 256), BitVec.ofNat 8 (w % 2 ^ nbits)]

/-- The command the decoder reads from a word of the opcode table. -/
def decodeTableWord (nbits w : Nat) : Option Instr :=
  match decode (tableWordBytes nbits w) with
  | .ok i => some i
  | .error _ => none

end Sys2Proof
end

