-- ==== Sys2Proof/Machine/Checksum.lean ====
section
/-! DEFINITION. The Checksum Engine (R100 to R103) and the Frame Codec (R104 to R107). Each is a total function that
takes no step (R109); both units use the same ones (R100). -/

namespace Sys2Proof.Machine

/-- `CRC_POLY` (R102). -/
def crcPoly : Byte := 0x31

/-- `CRC_INIT` (R102). -/
def crcInit : Byte := 0xFF

/-- One of the 8 iterations of R101: shift left with truncation, and XOR the polynomial where bit 7 was set. -/
def crcBit (acc : Byte) : Byte := if acc.getLsbD 7 then (acc <<< 1) ^^^ crcPoly else acc <<< 1

/-- `n` iterations of R101. -/
def crcBits : Nat → Byte → Byte
  | 0, acc => acc
  | n + 1, acc => crcBits n (crcBit acc)

/-- One byte of R101's loop: XOR it in, then 8 iterations. -/
def crcByte (acc b : Byte) : Byte := crcBits 8 (acc ^^^ b)

/-- R101's byte loop over a list of bytes, from an accumulator. -/
def crcBytes : Byte → List Byte → Byte
  | acc, [] => acc
  | acc, b :: bs => crcBytes (crcByte acc b) bs

/-- `crc8(word)`: most significant byte first, from `CRC_INIT`, no final XOR (R101, R102). -/
def crc8 (w : Word) : Byte := crcBytes crcInit [highByte w, lowByte w]

/-- `frameBytes(word)`, the three wire bytes of `encode(word)` (R82, R104). -/
def frameBytes (w : Word) : List Byte := [highByte w, lowByte w, crc8 w]

/-- The bytes of a response: the frames of its words, word 0 first (R83). -/
def responseBytes : List Word → List Byte
  | [] => []
  | w :: ws => frameBytes w ++ responseBytes ws

/-- `decode(b0, b1, b2)`: the word, or `ChecksumError` where the third byte is not its checksum (R106). -/
def decodeFrame (b0 b1 b2 : Byte) : Except ProtocolError Word :=
  if b2 = crc8 (wordOf b0 b1) then .ok (wordOf b0 b1) else .error .checksumError

end Sys2Proof.Machine
end

