-- ==== Sys2Proof/Machine/Operands.lean ====
section
/-! DEFINITION. What commands and requests move: the response records of R30, and frames in the two buffers (R105,
R195). Commands have no operand fields (R87). -/

namespace Sys2Proof.Machine

/-- A `Measured` record in wire order (R30). -/
def measuredWords (m : Measured) : List Word :=
  [m.pm1_0, m.pm2_5, m.pm4_0, m.pm10_0, m.humidity, m.temperature, m.vocIndex, m.noxIndex]

/-- A `Raw` record in wire order (R30). -/
def rawWords (r : Raw) : List Word := [r.humidity, r.temperature, r.vocRaw, r.noxRaw]

/-- A `RawMystery` record in wire order (R30). -/
def mystWords (r : RawMystery) : List Word := [r.humidity, r.temperature, r.mystery1, r.mystery2]

/-- The record register `log.meas` from the words of a read (R207). -/
def measuredOf : List Word → Option Measured
  | [a, b, c, d, e, f, g, h] => some ⟨a, b, c, d, e, f, g, h⟩
  | _ => none

/-- The record register `log.raw` from the words of a read (R208). -/
def rawOf : List Word → Option Raw
  | [a, b, c, d] => some ⟨a, b, c, d⟩
  | _ => none

/-- The record register `log.myst` from the words of a read (R209). -/
def mystOf : List Word → Option RawMystery
  | [a, b, c, d] => some ⟨a, b, c, d⟩
  | _ => none

/-- The measurement record the emulator answers with: the configured words, and the counter as `pm2_5` (R30, R133). -/
def measuredRecord (p : Params) (pm25 : Word) : Measured where
  pm1_0 := p.recMeasPm1_0
  pm2_5 := pm25
  pm4_0 := p.recMeasPm4_0
  pm10_0 := p.recMeasPm10_0
  humidity := p.recMeasHum
  temperature := p.recMeasTemp
  vocIndex := p.recMeasVoc
  noxIndex := p.recMeasNox

/-- `putFrame(i, word)`: the word at bytes `3i` and `3i+1`, its checksum at `3i+2` (R105). -/
def putFrame (i : Nat) (w : Word) (tx : Memory) : Result Memory :=
  andThen (memWrite tx (3 * i) [highByte w, lowByte w]) fun tx =>
    memWrite tx (3 * i + 2) [crc8 w]

/-- `putFrame` for each word of a response, the first as frame `i` (R83, R120). -/
def putFrames : Nat → List Word → Memory → Result Memory
  | _, [], tx => .next tx
  | i, w :: ws, tx => andThen (putFrame i w tx) fun tx => putFrames (i + 1) ws tx

end Sys2Proof.Machine
end

