-- ==== Sys2Proof/Machine/Commands.lean ====
section
/-! DEFINITION. The six commands. The meaning of a command is the whole atomic command-received step of R120 for it:
the prior response is discarded, the command's effect takes place, its words become frames in the TxBuffer. -/

namespace Sys2Proof.Machine

/-- The first lines of R120: `emu.fsm` is `Dispatching` inside the step, and the prior response is discarded, with no
event (R121). The unused code 0b11 of `emu.fsm` faults (R23). -/
def beginCommand (s : State) : Result State :=
  match s.emu.fsm with
  | .unused => .fault .unusedFsm
  | .idle => .next (setEmu { s.emu with fsm := .dispatching, txLen := 0 } s)
  | .dispatching => .next (setEmu { s.emu with fsm := .dispatching, txLen := 0 } s)
  | .readyToSend => .next (setEmu { s.emu with fsm := .dispatching, txLen := 0 } s)

/-- The state of `emu.fsm` after a response of `n` words (R26, R120, C2). -/
def fsmAfter (n : Nat) : EmuFsm := if n > 0 then .readyToSend else .idle

/-- The last lines of R120: the words become frames 0, 1, …, their number goes to `emu.txLen`, and `emu.fsm` leaves
`Dispatching`. -/
def respond (ws : List Word) (s : State) : Result State :=
  andThen (putFrames 0 ws s.emu.tx) fun tx =>
    .next (setEmu { s.emu with tx := tx, txLen := BitVec.ofNat 4 ws.length, fsm := fsmAfter ws.length } s)

/-- `START_MEASUREMENT`: the counter goes to its baseline; no words; a pending tick stays (R130). -/
def execStartMeasurement (s : State) : Result State :=
  andThen (beginCommand s) fun s => respond [] (setEmu { s.emu with pm25 := s.cfg.pm25Baseline } s)

/-- `READ_DATA_READY`: one word, the configured ready flag (R131). -/
def execReadDataReady (s : State) : Result State :=
  andThen (beginCommand s) fun s => respond [s.cfg.readyFlag] s

/-- `READ_MEASURED`: eight words, word 1 the counter as it is at this step (R133). -/
def execReadMeasured (s : State) : Result State :=
  andThen (beginCommand s) fun s => respond (measuredWords (measuredRecord s.cfg s.emu.pm25)) s

/-- `READ_RAW`: four configured words (R134). -/
def execReadRaw (s : State) : Result State :=
  andThen (beginCommand s) fun s => respond (rawWords s.cfg.recRaw) s

/-- `READ_RAW_MYSTERY`: sets `emu.tickPending`; four configured words, of which two are reserved (R89, R136). -/
def execReadRawMystery (s : State) : Result State :=
  andThen (beginCommand s) fun s => respond (mystWords s.cfg.recMyst) (setTick s)

/-- `UNRECOGNIZED`: raises `UnrecognizedCommand(op)`; no words (R138, C3). -/
def execUnrecognized (op : Word) (s : State) : Result State :=
  andThen (beginCommand s) fun s => respond [] (raiseEmu (.unrecognizedCommand op) s)

end Sys2Proof.Machine
end

