-- ==== Sys2Proof/Machine/Dispatch.lean ====
section
/-! DEFINITION. `dispatch(op)`: one arm per command of R84. -/

namespace Sys2Proof.Machine

def exec (i : Instr) (s : State) : Host.Outcome State Fault Refusal :=
  match i with
  | .startMeasurement => Sys2Proof.Machine.execStartMeasurement s
  | .readDataReady => Sys2Proof.Machine.execReadDataReady s
  | .readMeasured => Sys2Proof.Machine.execReadMeasured s
  | .readRaw => Sys2Proof.Machine.execReadRaw s
  | .readRawMystery => Sys2Proof.Machine.execReadRawMystery s
  | .unrecognized op => Sys2Proof.Machine.execUnrecognized op s

end Sys2Proof.Machine
end

