-- ==== Sys2Proof/Machine/Emulator.lean ====
section
/-! DEFINITION. The emulator's events: a write transaction (R81, R120), a read transaction (R150 to R153) and a turn of
the polling context (R155, R158). -/

namespace Sys2Proof.Machine

/-- A write transaction addressed to the block: of two bytes or more it is a command, of fewer it is ignored, with no
state change and no event (R81, R120). -/
def writeReceived (bytes : List Byte) (s : State) : Result State :=
  match decode bytes with
  | .ok i => exec i s
  | .error _ => .next s

/-- `n` bytes of a bus read from position `j` on, none of them data: draws (R151, R152; log 5). -/
def freeBytes (step : Nat) : Nat → Nat → List Byte
  | _, 0 => []
  | j, n + 1 => Config.freeByte step j :: freeBytes step (j + 1) n

/-- The bytes a read of `k` bytes delivers in `ReadyToSend`: the response's bytes from byte 0, as many as asked for,
then draws (R150, R151). -/
def deliver (e : Emu) (step k : Nat) : Result (List Byte) :=
  let n := 3 * e.txLen.toNat
  andThen (memRead e.tx 0 (min k n)) fun data => .next (data ++ freeBytes step n (k - n))

/-- A read transaction addressed to the block (R150). In `ReadyToSend` it delivers the response and empties the buffer,
whatever `k` is (R151); in `Idle` it is premature: draws and an event (R152, R153). The bytes go to `emu.busOut`. -/
def busRead (k : Nat) (s : State) : Result State :=
  match s.emu.fsm with
  | .readyToSend =>
    andThen (deliver s.emu s.env.steps k) fun out =>
      .next (setEmu { s.emu with txLen := 0, fsm := .idle, busOut := out } s)
  | .idle => .next (raiseEmu (.prematureRead k) (setEmu { s.emu with busOut := freeBytes s.env.steps 0 k } s))
  | .dispatching => .fault .dispatchingVisible
  | .unused => .fault .unusedFsm

/-- A turn of `EMU.TICK`: where a tick is pending it is consumed, the counter and the flag in one step; else the poll
finds nothing and the turn changes nothing (R155, R156, R158; log 3). -/
def tickTurn (s : State) : State :=
  if s.emu.tickPending then
    setEmu { s.emu with pm25 := tickCounter s.cfg s.emu.pm25, tickPending := false } s
  else s

end Sys2Proof.Machine
end

