-- ==== Sys2Proof/Machine/Logger.lean ====
section
/-! DEFINITION. The logger: the Bus Arbitration Monitor (R170 to R178), the Request/Response Reader (R190 to R201) and
the polling cycle (R203 to R215). Every definition that ends a step is part of one atomic step of `LOG`. -/

namespace Sys2Proof.Machine

/-! ### Registers that hold no value until a rule writes them

The spec states the stop: 10_state.md's opening (where an element "holds no value", "a model must fault on any read
of it") and 93_implementation_defined.md, section 1, row 4 ("`fault` on read"). -/

/-- Reads `log.cmd`; faults where it holds no value (R42). -/
def logCmd (l : Log) : Result Word := if l.written.request then .next l.cmd else .fault .noValue

/-- Reads `log.nwords`; faults where it holds no value (R42). -/
def logNwords (l : Log) : Result Nat := if l.written.request then .next l.nwords.toNat else .fault .noValue

/-- Reads `log.meas`; faults where it holds no value (R45). -/
def logMeas (l : Log) : Result Measured := if l.written.meas then .next l.meas else .fault .noValue

/-- Reads `log.raw`; faults where it holds no value (R45). -/
def logRaw (l : Log) : Result Raw := if l.written.raw then .next l.raw else .fault .noValue

/-- Reads `log.myst`; faults where it holds no value (R45). -/
def logMyst (l : Log) : Result RawMystery := if l.written.myst then .next l.myst else .fault .noValue

/-! ### Requests -/

/-- `startRequest(cmd, N)`, only in `RD_IDLE`; refuses more than `MAX_WORDS` words (R190). -/
def startRequest (cmd : Word) (n : Nat) (s : State) : Result State :=
  if n > maxWords then .refused .requestTooLong
  else if s.log.rd = .idle then
    .next (setLog { s.log with
      cmd := cmd, nwords := BitVec.ofNat 4 n, rd := .write, written := { s.log.written with request := true } } s)
  else .fault .noLoggerStep

/-- `log.phase <- phase; startRequest(cmd, n)`, as R205 to R208 use it. -/
def enterPhase (phase : LogPhase) (cmd : Word) (n : Nat) (s : State) : Result State :=
  startRequest cmd n (setLog { s.log with phase := phase } s)

/-- `log.phase <- CYCLE_END` (R206 to R209, R211). -/
def endCycle (s : State) : State := setLog { s.log with phase := .cycleEnd } s

/-- `afterClearance()`: the cycle's first request, the ready check where it is respected (R205). -/
def afterClearance (s : State) : Result State :=
  if s.cfg.respectReady then enterPhase .readyCheck opReadDataReady 1 s
  else enterPhase .readMeas opReadMeasured 8 s

/-- `emitRecord()`: appends the 16 words of the cycle to `log.records` (R213). -/
def emitRecord (s : State) : Result State :=
  andThen (logMeas s.log) fun meas =>
  andThen (logRaw s.log) fun raw =>
  andThen (logMyst s.log) fun myst =>
    .next (setLog { s.log with records := s.log.records ++ [⟨meas, raw, myst⟩] } s)

/-- `continue(READY_CHECK, res)` (R206). -/
def continueReady (res : RequestResult) (s : State) : Result State :=
  match res with
  | .ok [w] =>
    if safeToRead s.cfg w then enterPhase .readMeas opReadMeasured 8 s
    else .next (endCycle (raiseLog (.notReady w) s))
  | .ok _ => .next (endCycle s)
  | .err _ => .next (endCycle s)

/-- `continue(READ_MEAS, res)` (R207). -/
def continueMeas (res : RequestResult) (s : State) : Result State :=
  match res with
  | .ok ws =>
    match measuredOf ws with
    | some m =>
      enterPhase .readRaw opReadRaw 4
        (setLog { s.log with meas := m, written := { s.log.written with meas := true } } s)
    | none => .fault .recordLength
  | .err _ => .next (endCycle s)

/-- `continue(READ_RAW, res)` (R208). -/
def continueRaw (res : RequestResult) (s : State) : Result State :=
  match res with
  | .ok ws =>
    match rawOf ws with
    | some r =>
      enterPhase .readMyst opReadRawMystery 4
        (setLog { s.log with raw := r, written := { s.log.written with raw := true } } s)
    | none => .fault .recordLength
  | .err _ => .next (endCycle s)

/-- `continue(READ_MYST, res)` (R209). -/
def continueMyst (res : RequestResult) (s : State) : Result State :=
  match res with
  | .ok ws =>
    match mystOf ws with
    | some r =>
      andThen (emitRecord (setLog { s.log with myst := r, written := { s.log.written with myst := true } } s))
        fun s => .next (endCycle s)
    | none => .fault .recordLength
  | .err _ => .next (endCycle s)

/-- `continue(log.phase, res)`, the sequencer's completion rule for the phase (R197, R206 to R209). -/
def continueCycle (res : RequestResult) (s : State) : Result State :=
  match s.log.phase with
  | .readyCheck => continueReady res s
  | .readMeas => continueMeas res s
  | .readRaw => continueRaw res s
  | .readMyst => continueMyst res s
  | .cycleStart => .fault .noLoggerStep
  | .arbWait => .fault .noLoggerStep
  | .cycleEnd => .fault .noLoggerStep
  | .unused => .fault .unusedPhase

/-- How a request fails, with what its event reports beside `log.cmd` (R234). -/
inductive Failure where
  | transmit
  | short
  | checksum (frame : Nat)
  | incomplete (decoded : Nat)
deriving DecidableEq, Repr

/-- How a request ends: its words, or how it fails. -/
inductive Reply where
  | ok (words : List Word)
  | failed (f : Failure)
deriving DecidableEq, Repr

/-- The error of a failed request (R44). -/
def failureError : Failure → ProtocolError
  | .transmit => .transmitError
  | .short => .shortRead
  | .checksum _ => .checksumError
  | .incomplete _ => .incompleteMessage

/-- The event of a failed request (R234). -/
def failureEvent (cmd : Word) (rxCount : BitVec 5) : Failure → Event
  | .transmit => .transmitError cmd
  | .short => .shortRead cmd rxCount
  | .checksum i => .checksumError cmd i
  | .incomplete n => .incompleteMessage cmd n

/-- `log.result <- res; log.rd <- RD_IDLE` (R197). -/
def storeResult (res : RequestResult) (s : State) : State :=
  setLog { s.log with result := res, rd := .idle, written := { s.log.written with result := true } } s

/-- `complete(res)`: stores the result, frees the reader, raises a failed request's event, and goes on with the
sequencer, all in the step that ends the request (R197). -/
def completeRequest (r : Reply) (s : State) : Result State :=
  match r with
  | .ok ws => continueCycle (.ok ws) (storeResult (.ok ws) s)
  | .failed f =>
    andThen (logCmd s.log) fun cmd =>
      continueCycle (.err (failureError f))
        (raiseLog (failureEvent cmd s.log.rxCount f) (storeResult (.err (failureError f)) s))

/-- The loop of `validate()` over `todo` frames from frame `i` on, with the words decoded before: it aborts on the first
frame that fails `decode` (R195). -/
def decodeFrames (rx : Memory) : Nat → Nat → List Word → Result Reply
  | 0, _, words => .next (.ok words)
  | todo + 1, i, words =>
    andThen (readByte rx (3 * i)) fun b0 =>
    andThen (readByte rx (3 * i + 1)) fun b1 =>
    andThen (readByte rx (3 * i + 2)) fun b2 =>
      match decodeFrame b0 b1 b2 with
      | .ok w => decodeFrames rx todo (i + 1) (words ++ [w])
      | .error _ => .next (.failed (.checksum i))

/-- `validate()`: the count, then the frames, then the defensive check on the number of words (R195, R196, R198). -/
def validate (l : Log) : Result Reply :=
  andThen (logNwords l) fun n =>
    if l.rxCount.toNat < 3 * n then .next (.failed .short)
    else
      andThen (decodeFrames l.rx n 0 []) fun r =>
        match r with
        | .ok words => if words.length < n then .next (.failed (.incomplete words.length)) else .next (.ok words)
        | .failed f => .next (.failed f)

/-- `issue` a transaction (R191, R194; log 10). -/
def issue (t : BusTx) (s : State) : State := setLog { s.log with issued := s.log.issued ++ [t] } s

/-- `reqWrite` (R191): issues the command write; the transport's status decides, or the target emulator takes the
command in the same step, with `ok = true` (R192, R200, R216). -/
def reqWrite (target : BusTarget) (s : State) : Result State :=
  andThen (logCmd s.log) fun cmd =>
    let bytes := [highByte cmd, lowByte cmd]
    let s := issue (.write s.cfg.i2cAddr bytes) s
    match target with
    | .transport true _ => .next (setLog { s.log with rd := .settle } s)
    | .transport false _ => completeRequest (.failed .transmit) s
    | .emulator => andThen (writeReceived bytes s) fun s => .next (setLog { s.log with rd := .settle } s)

/-- `reqSettle` (R193): the settle delay is over; a request of no words completes without a read (R199). -/
def reqSettle (s : State) : Result State :=
  andThen (logNwords s.log) fun n =>
    if n = 0 then completeRequest (.ok []) s else .next (setLog { s.log with rd := .read } s)

/-- The bytes a read of `k` bytes returns: at most `k` bytes from the transport, or the target emulator's, whose
bus-read event happens in the same step (R200, R216). -/
def readAnswer (target : BusTarget) (k : Nat) (s : State) : Result (List Byte × State) :=
  match target with
  | .transport _ data => .next (data.take k, s)
  | .emulator => andThen (busRead k s) fun s => .next (s.emu.busOut, s)

/-- Puts the returned bytes into the receive buffer, in wire order, and their number into `log.rxCount` (R194). -/
def receive (bytes : List Byte) (s : State) : Result State :=
  andThen (memWrite s.log.rx 0 bytes) fun rx =>
    .next (setLog { s.log with rx := rx, rxCount := BitVec.ofNat 5 bytes.length } s)

/-- `reqRead` (R194): issues a read of `3N` bytes, receives what comes back, validates it and completes. -/
def reqRead (target : BusTarget) (s : State) : Result State :=
  andThen (logNwords s.log) fun n =>
    let k := 3 * n
    andThen (readAnswer target k (issue (.read s.cfg.i2cAddr k) s)) fun a =>
    andThen (receive a.1 a.2) fun s =>
    andThen (validate s.log) fun r => completeRequest r s

/-- The reader's step in a request phase (R191, R193, R194). -/
def readerStep (target : BusTarget) (s : State) : Result State :=
  match s.log.rd with
  | .idle => .fault .noLoggerStep
  | .write => reqWrite target s
  | .settle => reqSettle s
  | .read => reqRead target s

/-! ### The monitor and the cycle -/

/-- `arbStart`: each wait starts a new window (R172). -/
def arbStart (s : State) : State := setLog { s.log with idleCount := 0 } s

/-- `arbSample` with the sample `v`: a low line restarts the window, a high one extends it (R173). -/
def arbSample (v : Bool) (s : State) : State :=
  setLog { s.log with idleCount := if v then s.log.idleCount + 1 else 0 } s

/-- The monitor's step in `ARB_WAIT`: a sample while the window is short, clearance once it is full, with no bound on the
wait (R173, R174, R176, R205). -/
def arbStep (v : Bool) (s : State) : Result State :=
  if s.log.idleCount < s.cfg.idleMin then .next (arbSample v s)
  else if cleared s then afterClearance s
  else .fault .noLoggerStep

/-- `cycleStart` (R203): the arbitration wait, or its bypass (R177). -/
def cycleStart (s : State) : Result State :=
  if s.cfg.arbEnable then .next (arbStart (setLog { s.log with phase := .arbWait } s))
  else afterClearance s

/-- Cycle end: `log.phase <- CYCLE_START` (R210). -/
def cycleEnd (s : State) : State := setLog { s.log with phase := .cycleStart } s

/-- A step of a phase in which no request is in progress; one in progress there faults (log 4). -/
def whenIdle (o : Result State) (s : State) : Result State :=
  if s.log.rd = .idle then o else .fault .noLoggerStep

/-- One turn of `LOG`: the one step that `log.phase` and `log.rd` enable (R203 to R210, R215; log 4). -/
def loggerTurn (d : LogDraw) (s : State) : Result State :=
  match s.log.phase with
  | .cycleStart => whenIdle (cycleStart s) s
  | .arbWait => whenIdle (arbStep d.sense s) s
  | .readyCheck => readerStep d.target s
  | .readMeas => readerStep d.target s
  | .readRaw => readerStep d.target s
  | .readMyst => readerStep d.target s
  | .cycleEnd => whenIdle (.next (cycleEnd s)) s
  | .unused => .fault .unusedPhase

end Sys2Proof.Machine
end

