-- ==== Sys2Proof/Machine/Inputs.lean ====
section
/-! DEFINITION. What each input does: the one atomic step of the agent it concerns (R11, R12, R249). -/

namespace Sys2Proof.Machine

/-- The emulator unit resets; the logger goes on (R260, R261). -/
def resetEmulator (s : State) : State := setEmu (Emu.reset s.cfg) s

/-- The logger unit resets; the emulator goes on (R260, R262). -/
def resetLogger (s : State) : State := setLog Log.reset s

/-- The step an input calls for. A transaction to another bus address is no event of the block (R68). -/
def runInput (i : Input) (s : State) : Result State :=
  match i with
  | .cmdWrite addr bytes => if addressesBlock s.cfg addr then writeReceived bytes s else .next s
  | .busRead addr k => if addressesBlock s.cfg addr then busRead k s else .next s
  | .tick => .next (tickTurn s)
  | .logger draw => loggerTurn draw s
  | .resetEmu => .next (resetEmulator s)
  | .resetLog => .next (resetLogger s)

end Sys2Proof.Machine
end

