-- ==== Sys2Proof/Machine/Step.lean ====
section
/-! DEFINITION. One step of the block: the next input is taken and the step it calls for is run (R12). -/

namespace Sys2Proof.Machine

/-- One atomic step (R12): which agent moves and what it draws is the next input; its effect is `runInput`. -/
def step (s : State) : Host.Outcome State Fault Refusal := runInput (nextInput s) (consumeInput s)

/-- The state in which the next input is the write transaction, addressed to the block, of the command whose bits in
the opcode table are `w`. The block fetches nothing (R77): a command comes to it as a write (log 2, log 17). -/
def State.withFetchWord (s : State) (nbits w : Nat) : State :=
  { s with env := { s.env with script := .cmdWrite .own (tableWordBytes nbits w) :: s.env.script } }

end Sys2Proof.Machine
end

