-- ==== Sys2Proof/Safety.lean ====
section
/-! DEFINITION. The words statements are made in: the response a command asks for, the invariant of the step boundaries,
runs, and the fairness premise of `EMU.TICK`. -/

namespace Sys2Proof.Safety

open Sys2Proof.Machine

/-! ### Responses -/

/-- The words of a command's response, where the counter holds `pm25` (R30, R85, R130 to R138). -/
def commandWords (p : Params) (pm25 : Word) : Instr → List Word
  | .startMeasurement => []
  | .readDataReady => [p.readyFlag]
  | .readMeasured =>
    [p.recMeasPm1_0, pm25, p.recMeasPm4_0, p.recMeasPm10_0, p.recMeasHum, p.recMeasTemp, p.recMeasVoc, p.recMeasNox]
  | .readRaw => [p.recRaw.humidity, p.recRaw.temperature, p.recRaw.vocRaw, p.recRaw.noxRaw]
  | .readRawMystery => [p.recMyst.humidity, p.recMyst.temperature, p.recMyst.mystery1, p.recMyst.mystery2]
  | .unrecognized _ => []

/-- The TxBuffer holds word `w` as frame `i`: `[w[15:8], w[7:0], crc8(w)]` at bytes `3i` to `3i+2` (R82, R105). -/
abbrev FrameAt (m : Memory) (i : Nat) (w : Word) : Prop :=
  byteAt m (3 * i) = some (highByte w) ∧ byteAt m (3 * i + 1) = some (lowByte w) ∧ byteAt m (3 * i + 2) = some (crc8 w)

/-- What every command step leaves: the response `ws` buffered frame by frame, every other byte of the TxBuffer as
before, and `emu.txLen` and `emu.fsm` as R120 and R26 give them. The last bus read's bytes, the configuration, the
environment's part and the logger are as before (R70). Of the emulator it leaves out `pm25`, `tickPending` and
`events`. -/
structure Responded (s t : State) (ws : List Word) : Prop where
  len : t.emu.txLen.toNat = ws.length
  fsm : t.emu.fsm = if ws = [] then .idle else .readyToSend
  frames : ∀ i w, ws[i]? = some w → FrameAt t.emu.tx i w
  rest : ∀ a, 3 * ws.length ≤ a → byteAt t.emu.tx a = byteAt s.emu.tx a
  busOut : t.emu.busOut = s.emu.busOut
  cfg : t.cfg = s.cfg
  log : t.log = s.log
  env : t.env = s.env

/-! ### The invariant of the step boundaries -/

/-- Frame `i` of the TxBuffer is complete and passes the checksum test (R82, R106). -/
def frameIsValid (m : Memory) (i : Nat) : Bool :=
  match byteAt m (3 * i), byteAt m (3 * i + 1), byteAt m (3 * i + 2) with
  | some a, some b, some c => c == crc8 (wordOf a b)
  | _, _, _ => false

/-- The emulator at a step boundary: the TxBuffer in canonical form, at most 8 frames (R25), `emu.fsm` as R24 and R26
tie it to `emu.txLen`, and every buffered frame valid (R82). -/
abbrev EmuInv (e : Emu) : Prop :=
  Memory.wf e.tx = true ∧
  e.txLen.toNat ≤ 8 ∧
  ((e.fsm = .idle ∧ e.txLen.toNat = 0) ∨ (e.fsm = .readyToSend ∧ 0 < e.txLen.toNat)) ∧
  ∀ i, i < e.txLen.toNat → frameIsValid e.tx i = true

/-- A request for `n` words with opcode `cmd` is in progress (R190). -/
abbrev RequestIs (l : Log) (cmd : Word) (n : Nat) : Prop :=
  l.rd ≠ .idle ∧ l.written.request = true ∧ l.cmd = cmd ∧ l.nwords.toNat = n

/-- The logger at a step boundary: the receive buffer in canonical form, its counts within their bounds (R43, R46), no
unused phase (R40), the request of each phase as R205 to R208 start it, no request in the other phases, and the
records read earlier in the cycle held (R207, R208). -/
abbrev LogInv (p : Params) (l : Log) : Prop :=
  Memory.wf l.rx = true ∧
  l.rxCount.toNat ≤ 24 ∧
  l.idleCount ≤ p.idleMin ∧
  l.phase ≠ .unused ∧
  (l.phase = .cycleStart ∨ l.phase = .arbWait ∨ l.phase = .cycleEnd → l.rd = .idle) ∧
  (l.phase = .readyCheck → RequestIs l 0x0202 1) ∧
  (l.phase = .readMeas → RequestIs l 0x03C4 8) ∧
  (l.phase = .readRaw → RequestIs l 0x03D2 4 ∧ l.written.meas = true) ∧
  (l.phase = .readMyst → RequestIs l 0x03F5 4 ∧ l.written.meas = true ∧ l.written.raw = true)

/-- The invariant of every step boundary: an admissible configuration (R7) and both units in order. -/
abbrev BoundaryInv (s : State) : Prop := s.cfg.admissible = true ∧ EmuInv s.emu ∧ LogInv s.cfg s.log

/-- A request is in progress, in one of the four request phases, and the reader is in sub-state `rd` (R40, R41,
R190). -/
abbrev InRequest (l : Log) (rd : ReaderState) : Prop :=
  (l.phase = .readyCheck ∨ l.phase = .readMeas ∨ l.phase = .readRaw ∨ l.phase = .readMyst) ∧
  l.rd = rd ∧ l.written.request = true

/-- The three bytes of frame `j` of a list of received bytes decode to `r` (R106, R195). -/
abbrev FrameOf (data : List Byte) (j : Nat) (r : Except ProtocolError Word) : Prop :=
  ∃ b0 b1 b2, data[3 * j]? = some b0 ∧ data[3 * j + 1]? = some b1 ∧ data[3 * j + 2]? = some b2 ∧
    decodeFrame b0 b1 b2 = r

/-- The first `n` bytes of an answer are in the receive buffer, from index 0 on, and counted; every other byte of the
buffer is as before (R194). -/
abbrev Received (data : List Byte) (n : Nat) (before after : Log) : Prop :=
  after.rxCount.toNat = n ∧ ∀ a, byteAt after.rx a = if a < n then data[a]? else byteAt before.rx a

/-- The transactions `LOG` issues in a phase: the write of its opcode and the read of its response, at `I2C_ADDR`
(R191, R194, R214). -/
def mayIssue (p : Params) : LogPhase → BusTx → Prop
  | .readyCheck, tx => tx = .write p.i2cAddr [0x02, 0x02] ∨ tx = .read p.i2cAddr 3
  | .readMeas, tx => tx = .write p.i2cAddr [0x03, 0xC4] ∨ tx = .read p.i2cAddr 24
  | .readRaw, tx => tx = .write p.i2cAddr [0x03, 0xD2] ∨ tx = .read p.i2cAddr 12
  | .readMyst, tx => tx = .write p.i2cAddr [0x03, 0xF5] ∨ tx = .read p.i2cAddr 12
  | .cycleStart, _ => False
  | .arbWait, _ => False
  | .cycleEnd, _ => False
  | .unused, _ => False

/-! ### Runs -/

/-- The next step consumes a tick: `EMU.TICK` has its turn while a tick is pending (R155). -/
def consumesTick (s : State) : Bool :=
  match nextInput s with
  | .tick => s.emu.tickPending
  | _ => false

/-- The next input is a `START_MEASUREMENT` write to the block, or the emulator's reset: what sets the counter other
than a tick (R27, R130, R261). -/
def restartsCounter (s : State) : Bool :=
  match nextInput s with
  | .cmdWrite addr bytes =>
    match addressesBlock s.cfg addr, decode bytes with
    | true, .ok .startMeasurement => true
    | _, _ => false
  | .resetEmu => true
  | _ => false

/-- `CounterRun n s t`: a run of the machine from `s` to `t`, of any inputs in any order, that consumes exactly `n`
ticks, with no `START_MEASUREMENT` and no reset of the emulator in it (the premises of R157). -/
inductive CounterRun : Nat → State → State → Prop where
  | start (s : State) : CounterRun 0 s s
  | tick {n : Nat} {s t u : State} (run : CounterRun n s t) (h : consumesTick t = true) (hs : step t = .next u) :
      CounterRun (n + 1) s u
  | other {n : Nat} {s t u : State} (run : CounterRun n s t) (h : consumesTick t = false)
      (hr : restartsCounter t = false) (hs : step t = .next u) : CounterRun n s u

/-- The state with another list of inputs fixed so far. -/
def withScript (script : List Input) (s : State) : State := { s with env := { s.env with script := script } }

/-- An infinite run of the machine along the inputs `ins`: between steps the environment may fix any inputs it likes, and
the step then taken takes `ins n`. -/
def InfiniteRun (ins : Nat → Input) (run : Nat → State) : Prop :=
  ∀ n, ∃ script, nextInput (withScript script (run n)) = ins n ∧ step (withScript script (run n)) = .next (run (n + 1))

/-- Weak fairness of `EMU.TICK`: where the tick step stays enabled from some point on, it is taken at some later point
(R156). A premise of liveness statements, no part of the step (log 20). -/
def WeaklyFairTick (ins : Nat → Input) (run : Nat → State) : Prop :=
  ∀ n, (∀ m, n ≤ m → (run m).emu.tickPending = true) → ∃ m, n ≤ m ∧ ins m = .tick

/-- How many samples at the end of a list of clock-line samples, oldest first, are high: the length of the idle window
(R173, R175). -/
def trailingHighs (samples : List Bool) : Nat := (samples.reverse.takeWhile (fun v => v)).length

/-- The inputs of a run of `LOG` that only samples the clock line (R173). -/
def sampleInputs (samples : List Bool) : List Input :=
  samples.map fun v => .logger { sense := v, target := .transport false [] }

/-- The input that gives `LOG` a turn with an emulator target (R216). -/
def loggerOnEmulator : Input := .logger { sense := true, target := .emulator }

end Sys2Proof.Safety
end

