-- ==== Sys2Proof/WellFormed.lean ====
section
/-! DEFINITION. Which terms of `Instr` are commands: the fallback row stands only for an opcode that no named row
matches (R84, R86, R138). -/

namespace Sys2Proof

/-- The fallback row's condition: its opcode is none of the five named ones (R84, R138). -/
def opcodeIsUnnamed (op : Word) : Bool := !namedOpcodes.contains op

/-- A command the opcode space holds: a named row, or the fallback row with an unnamed opcode (R86). -/
def Instr.wellFormed : Instr → Bool
  | .startMeasurement => true
  | .readDataReady => true
  | .readMeasured => true
  | .readRaw => true
  | .readRawMystery => true
  | .unrecognized op => opcodeIsUnnamed op

end Sys2Proof
end

