-- ==== Sys2Proof/Certificates/Slice0/Obligations.lean ====
section
/-! DEFINITION. The statements for the provers. Each says which rules of spec/ it formalises. -/

open Sys2Proof Sys2Proof.Machine Sys2Proof.Safety

/-! ### Encoding -/

/-- R84: the wire bytes of each row select the row, and any other opcode selects the fallback row. -/
def Obligations.OpcodeTableRows : Prop :=
  decode [0x00, 0x21] = .ok .startMeasurement ∧ decode [0x02, 0x02] = .ok .readDataReady ∧
  decode [0x03, 0xC4] = .ok .readMeasured ∧ decode [0x03, 0xD2] = .ok .readRaw ∧
  decode [0x03, 0xF5] = .ok .readRawMystery ∧
  ∀ op : Word, op ≠ 0x0021 → op ≠ 0x0202 → op ≠ 0x03C4 → op ≠ 0x03D2 → op ≠ 0x03F5 →
    decode [highByte op, lowByte op] = .ok (.unrecognized op)

/-- Decode and encode agree (R80, R81, R86, R90): the bytes of a write are read as command `i` exactly where `i` is
well-formed and the first two bytes are its encoding. -/
def Obligations.DecodeEncodeAgree : Prop :=
  ∀ (bytes : List Byte) (i : Instr), decode bytes = .ok i ↔ i.wellFormed = true ∧ bytes.take 2 = encode i

/-- A step runs the decoded command: where the next input is a write addressed to the block whose bytes decode to `i`,
the step is `exec i` on the state with the input taken (R120; log 2). -/
def Obligations.StepRunsDecodedCommand : Prop :=
  ∀ (s : State) (addr : BusAddr) (bytes : List Byte) (i : Instr),
    nextInput s = .cmdWrite addr bytes → addressesBlock s.cfg addr = true → decode bytes = .ok i →
    step s = exec i (consumeInput s)

/-- R81: a write of fewer than two bytes changes nothing and raises nothing; of a longer write only the first two bytes
count. -/
def Obligations.WriteLengths : Prop :=
  ∀ (s : State) (addr : BusAddr) (bytes : List Byte),
    nextInput s = .cmdWrite addr bytes → addressesBlock s.cfg addr = true →
    (bytes.length < 2 → step s = .next (consumeInput s)) ∧
    (∀ b0 b1 rest, bytes = b0 :: b1 :: rest →
      step s = exec (decodeOpcode ((b0.setWidth 16 <<< 8) ||| b1.setWidth 16)) (consumeInput s))

/-- R68: a transaction to another bus address is no event of either unit. -/
def Obligations.OtherAddressesIgnored : Prop :=
  ∀ (s : State) (a : BusAddress), a ≠ s.cfg.i2cAddr →
    (∀ bytes, nextInput s = .cmdWrite (.literal a) bytes → step s = .next (consumeInput s)) ∧
    (∀ k, nextInput s = .busRead (.literal a) k → step s = .next (consumeInput s))

/-! ### Commands -/

/-- R120, R130: `START_MEASUREMENT` completes in every state but the unused code of `emu.fsm`: the counter is the
baseline, the TxBuffer is emptied, nothing else changes; a pending tick stays. -/
def Obligations.StartMeasurementResult : Prop :=
  decode [0x00, 0x21] = .ok .startMeasurement ∧
  ∀ s : State, s.emu.fsm ≠ .unused → ∃ t, exec .startMeasurement s = .next t ∧ Responded s t [] ∧
    t.emu.pm25 = s.cfg.pm25Baseline ∧ t.emu.tickPending = s.emu.tickPending ∧ t.emu.events = s.emu.events

/-- R120, R131: `READ_DATA_READY` completes with one word, the ready flag; nothing else changes. -/
def Obligations.ReadDataReadyResult : Prop :=
  decode [0x02, 0x02] = .ok .readDataReady ∧
  ∀ s : State, s.emu.fsm ≠ .unused → ∃ t, exec .readDataReady s = .next t ∧ Responded s t [s.cfg.readyFlag] ∧
    t.emu.pm25 = s.emu.pm25 ∧ t.emu.tickPending = s.emu.tickPending ∧ t.emu.events = s.emu.events

/-- R30, R120, R133: `READ_MEASURED` completes with eight words, word 1 the counter; nothing else changes. -/
def Obligations.ReadMeasuredResult : Prop :=
  decode [0x03, 0xC4] = .ok .readMeasured ∧
  ∀ s : State, s.emu.fsm ≠ .unused → ∃ t, exec .readMeasured s = .next t ∧
    Responded s t [s.cfg.recMeasPm1_0, s.emu.pm25, s.cfg.recMeasPm4_0, s.cfg.recMeasPm10_0, s.cfg.recMeasHum,
      s.cfg.recMeasTemp, s.cfg.recMeasVoc, s.cfg.recMeasNox] ∧
    t.emu.pm25 = s.emu.pm25 ∧ t.emu.tickPending = s.emu.tickPending ∧ t.emu.events = s.emu.events

/-- R30, R120, R134: `READ_RAW` completes with four configured words; nothing else changes. -/
def Obligations.ReadRawResult : Prop :=
  decode [0x03, 0xD2] = .ok .readRaw ∧
  ∀ s : State, s.emu.fsm ≠ .unused → ∃ t, exec .readRaw s = .next t ∧
    Responded s t [s.cfg.recRaw.humidity, s.cfg.recRaw.temperature, s.cfg.recRaw.vocRaw, s.cfg.recRaw.noxRaw] ∧
    t.emu.pm25 = s.emu.pm25 ∧ t.emu.tickPending = s.emu.tickPending ∧ t.emu.events = s.emu.events

/-- R30, R120, R136: `READ_RAW_MYSTERY` completes with four configured words and sets the tick flag, which stays set
where it was; nothing else changes. -/
def Obligations.ReadRawMysteryResult : Prop :=
  decode [0x03, 0xF5] = .ok .readRawMystery ∧
  ∀ s : State, s.emu.fsm ≠ .unused → ∃ t, exec .readRawMystery s = .next t ∧
    Responded s t [s.cfg.recMyst.humidity, s.cfg.recMyst.temperature, s.cfg.recMyst.mystery1, s.cfg.recMyst.mystery2] ∧
    t.emu.pm25 = s.emu.pm25 ∧ t.emu.tickPending = true ∧ t.emu.events = s.emu.events

/-- R120, R138, R232: an unrecognised command completes: no words, its event, nothing else. -/
def Obligations.UnrecognizedResult : Prop :=
  (∀ op : Word, opcodeIsUnnamed op = true → decode [highByte op, lowByte op] = .ok (.unrecognized op)) ∧
  ∀ (op : Word) (s : State), opcodeIsUnnamed op = true → s.emu.fsm ≠ .unused →
    ∃ t, exec (.unrecognized op) s = .next t ∧ Responded s t [] ∧
    t.emu.pm25 = s.emu.pm25 ∧ t.emu.tickPending = s.emu.tickPending ∧
    t.emu.events = s.emu.events ++ [.unrecognizedCommand op] ∧ eventCode (.unrecognizedCommand op) = 0x01

/-- R23, R40: a command (every term of `Instr`, the ill-formed ones of log 22 too) or a bus read that finds the unused
code of `emu.fsm` faults, and so does a turn of `LOG` that finds the unused code of `log.phase`. -/
def Obligations.UnusedCodesFault : Prop :=
  ∀ s : State,
    (s.emu.fsm = .unused → (∀ i, exec i s = .fault .unusedFsm) ∧ (∀ k, busRead k s = .fault .unusedFsm)) ∧
    (s.log.phase = .unused → ∀ d, loggerTurn d s = .fault .unusedPhase)

/-- R139: for every opcode of the table the command step leaves the documented word count of R85; for every other it
leaves none and raises exactly one event. -/
def Obligations.DispatchWordCounts : Prop :=
  ∀ (op : Word) (s : State), s.emu.fsm ≠ .unused → ∃ t, exec (decodeOpcode op) s = .next t ∧
    (op = 0x0021 → t.emu.txLen = 0) ∧ (op = 0x0202 → t.emu.txLen = 1) ∧ (op = 0x03C4 → t.emu.txLen = 8) ∧
    (op = 0x03D2 → t.emu.txLen = 4) ∧ (op = 0x03F5 → t.emu.txLen = 4) ∧
    (opcodeIsUnnamed op = false → t.emu.events = s.emu.events) ∧
    (opcodeIsUnnamed op = true → t.emu.txLen = 0 ∧ t.emu.events = s.emu.events ++ [.unrecognizedCommand op])

/-- R121, "last command wins": what a command does is the same whatever response was buffered before it, its bytes, its
length and the emulator's state. Only bytes past the new response, which no read delivers as data, may differ (log 7).
It is said of every term of `Instr`, the ill-formed ones of log 22 too. -/
def Obligations.LastCommandWins : Prop :=
  ∀ (i : Instr) (s : State) (fsm : EmuFsm) (tx : Memory) (len : BitVec 4), s.emu.fsm ≠ .unused → fsm ≠ .unused →
    ∃ t u, exec i s = .next t ∧ exec i (setEmu { s.emu with fsm := fsm, tx := tx, txLen := len } s) = .next u ∧
      u = setEmu { t.emu with tx := u.emu.tx } t ∧
      ∀ a, a < 3 * t.emu.txLen.toNat → byteAt u.emu.tx a = byteAt t.emu.tx a

/-! ### Bus reads -/

/-- R150, R151: in `ReadyToSend` a read of `k` bytes returns `k` bytes, the response's as far as it goes, empties the
buffer and enters `Idle`, whatever `k` is; it raises nothing and changes nothing else. -/
def Obligations.BusReadDelivers : Prop :=
  ∀ (s : State) (k : Nat), EmuInv s.emu → s.emu.fsm = .readyToSend → ∃ t, busRead k s = .next t ∧
    t.emu.busOut.length = k ∧
    (∀ j, j < k → j < 3 * s.emu.txLen.toNat → t.emu.busOut[j]? = byteAt s.emu.tx j) ∧
    t = setEmu { s.emu with txLen := 0, fsm := .idle, busOut := t.emu.busOut } s

/-- R152: a premature read returns `k` bytes, raises `PrematureRead` once and stays in `Idle`. -/
def Obligations.PrematureReadReported : Prop :=
  ∀ (s : State) (k : Nat), s.emu.fsm = .idle → ∃ t, busRead k s = .next t ∧ t.emu.busOut.length = k ∧
    t = setEmu { s.emu with busOut := t.emu.busOut, events := s.emu.events ++ [.prematureRead k] } s

/-- R83, R120, R150: reading a command's whole response returns the frames of its words in order, and the read right
after it is premature. -/
def Obligations.ResponseReadBack : Prop :=
  ∀ (i : Instr) (s t : State), exec i s = .next t → commandWords s.cfg s.emu.pm25 i ≠ [] →
    ∃ u v, busRead (3 * t.emu.txLen.toNat) t = .next u ∧
      u.emu.busOut = responseBytes (commandWords s.cfg s.emu.pm25 i) ∧ u.emu.fsm = .idle ∧
      u.emu.events = t.emu.events ∧ busRead 3 u = .next v ∧ v.emu.events = u.emu.events ++ [.prematureRead 3]

/-- R154: the transition table of `emu.fsm`, row by row, at a step boundary. A turn of `EMU.TICK` with no tick pending
is no row of it, but a stutter by the model's choice (log 3). -/
def Obligations.FsmTransitions : Prop :=
  ∀ s : State, EmuInv s.emu →
    (∀ addr b0 b1 rest, nextInput s = .cmdWrite addr (b0 :: b1 :: rest) → addressesBlock s.cfg addr = true →
      ∃ t, step s = .next t ∧ t.emu.fsm =
        if commandWords s.cfg s.emu.pm25 (decodeOpcode (wordOf b0 b1)) = [] then .idle else .readyToSend) ∧
    (∀ addr bytes, nextInput s = .cmdWrite addr bytes → bytes.length < 2 →
      ∃ t, step s = .next t ∧ t.emu = s.emu) ∧
    (∀ addr k, nextInput s = .busRead addr k → addressesBlock s.cfg addr = true →
      ∃ t, step s = .next t ∧ t.emu.fsm = .idle ∧
        t.emu.events = if s.emu.fsm = .idle then s.emu.events ++ [.prematureRead k] else s.emu.events) ∧
    (nextInput s = .tick → ∃ t, step s = .next t ∧ t.emu.fsm = s.emu.fsm)

/-! ### Ticks and the counter -/

/-- R155, R158: a consumed tick adds the step to the counter, or sets the baseline where the sum, which never wraps,
exceeds the ceiling; it clears the flag, and touches nothing else. -/
def Obligations.TickConsumption : Prop :=
  ∀ s : State, nextInput s = .tick → s.emu.tickPending = true → ∃ t, step s = .next t ∧
    t.emu.pm25.toNat = (if s.cfg.pm25Ceiling.toNat < s.emu.pm25.toNat + s.cfg.pm25Step.toNat
      then s.cfg.pm25Baseline.toNat else s.emu.pm25.toNat + s.cfg.pm25Step.toNat) ∧
    t.emu = { s.emu with pm25 := t.emu.pm25, tickPending := false } ∧ t.log = s.log ∧ t.cfg = s.cfg

/-- The model's choice (log 3): a turn of `EMU.TICK` with no tick pending changes nothing. -/
def Obligations.TickTurnWithoutTick : Prop :=
  ∀ s : State, nextInput s = .tick → s.emu.tickPending = false → step s = .next (consumeInput s)

/-- R157, the tick/counter law: over every run, of any inputs in any order, from a state with the counter at its
baseline, after exactly `n` consumed ticks and with no `START_MEASUREMENT` and no reset of the emulator. -/
def Obligations.TickCounterLaw : Prop :=
  ∀ (n : Nat) (s t : State), BoundaryInv s → s.emu.pm25 = s.cfg.pm25Baseline → CounterRun n s t →
    (0 < s.cfg.pm25Step.toNat →
      t.emu.pm25.toNat = s.cfg.pm25Baseline.toNat +
        n % ((s.cfg.pm25Ceiling.toNat - s.cfg.pm25Baseline.toNat) / s.cfg.pm25Step.toNat + 1) *
          s.cfg.pm25Step.toNat) ∧
    (s.cfg.pm25Step.toNat = 0 → t.emu.pm25 = s.cfg.pm25Baseline)

/-- R28, R271: two `READ_RAW_MYSTERY` with no tick consumed between them, whatever else happens there but a
`START_MEASUREMENT` or a reset of the emulator, give one tick: the next turn of `EMU.TICK` moves the counter on once,
and the one after it changes nothing (that last clause is the model's choice, log 3). -/
def Obligations.TickSlotOverrun : Prop :=
  ∀ s t u v : State, BoundaryInv s → exec .readRawMystery s = .next t → CounterRun 0 t u →
    exec .readRawMystery u = .next v →
    v.emu.tickPending = true ∧ (tickTurn v).emu.tickPending = false ∧
    (tickTurn v).emu.pm25 = tickCounter s.cfg s.emu.pm25 ∧ tickTurn (tickTurn v) = tickTurn v

/-- R272: where a tick is pending at `START_MEASUREMENT`, the step that consumes it later, whatever happens before but
another `START_MEASUREMENT` or a reset of the emulator, moves the counter on from the baseline, by the wrap rule. -/
def Obligations.StartMeasurementWithTickPending : Prop :=
  ∀ s t u v : State, BoundaryInv s → exec .startMeasurement s = .next t → s.emu.tickPending = true →
    CounterRun 0 t u → consumesTick u = true → step u = .next v →
    v.emu.tickPending = false ∧
    v.emu.pm25.toNat = (if s.cfg.pm25Ceiling.toNat < s.cfg.pm25Baseline.toNat + s.cfg.pm25Step.toNat
      then s.cfg.pm25Baseline.toNat else s.cfg.pm25Baseline.toNat + s.cfg.pm25Step.toNat)

/-- R72, R274: a tick consumed between a command and its read is not seen in the response, given equal draws (log 5).
With no tick pending the turn is a stutter by the model's choice (log 3). -/
def Obligations.ResponseSnapshot : Prop :=
  ∀ (s t : State) (k : Nat), busRead k s = .next t →
    ∃ u, busRead k (tickTurn s) = .next u ∧ u.emu.busOut = t.emu.busOut

/-- R155, R159: under an admissible configuration a counter at or below the ceiling stays there in every step but a
reset of the emulator. -/
def Obligations.CounterStaysWithinCeiling : Prop :=
  ∀ s t : State, s.cfg.admissible = true → s.emu.pm25.toNat ≤ s.cfg.pm25Ceiling.toNat → nextInput s ≠ .resetEmu →
    step s = .next t → t.emu.pm25.toNat ≤ s.cfg.pm25Ceiling.toNat

/-- R156: in every infinite run that is weakly fair to `EMU.TICK`, a pending tick stays pending until a turn of
`EMU.TICK` consumes it or the emulator is reset, and one of the two happens (fairness: log 20; resets: log 8). -/
def Obligations.FairTickIsConsumed : Prop :=
  ∀ (ins : Nat → Input) (run : Nat → State), InfiniteRun ins run → WeaklyFairTick ins run →
    ∀ n, (run n).emu.tickPending = true → ∃ m, n ≤ m ∧ (∀ k, n ≤ k → k ≤ m → (run k).emu.tickPending = true) ∧
      ((ins m = .tick ∧ (run (m + 1)).emu.tickPending = false ∧
          (run (m + 1)).emu.pm25 = tickCounter (run m).cfg (run m).emu.pm25) ∨
        ins m = .resetEmu)

/-! ### Checksum engine and frame codec -/

/-- R101, R103: the worked examples of the checksum. -/
def Obligations.ChecksumExamples : Prop :=
  crc8 0x0000 = 0x81 ∧ crc8 0xFFFF = 0xAC ∧ crc8 0xFF00 = 0x00 ∧ crc8 0xBEEF = 0x92

/-- R106, R108: a frame decodes exactly where its third byte is the checksum of its word, and then to the word; so what
is encoded decodes. -/
def Obligations.FrameRoundTrip : Prop :=
  (∀ w : Word, ∃ b0 b1 b2, frameBytes w = [b0, b1, b2] ∧ decodeFrame b0 b1 b2 = .ok w) ∧
  (∀ (b0 b1 b2 : Byte) (w : Word), decodeFrame b0 b1 b2 = .ok w → frameBytes w = [b0, b1, b2])

/-- R108: a single-bit flip anywhere in a frame is detected. -/
def Obligations.SingleBitFlipDetected : Prop :=
  ∀ (w : Word) (i : Nat), i < 24 →
    ∃ b0 b1 b2 : Byte, (b0 ++ b1 ++ b2 : BitVec 24) = (w ++ crc8 w : BitVec 24) ^^^ (1#24 <<< i) ∧
      decodeFrame b0 b1 b2 = .error .checksumError

/-- R108: the checksum loop over the three bytes of a frame leaves 0 exactly where the frame is valid. -/
def Obligations.WholeFrameResidue : Prop :=
  ∀ (w : Word) (c : Byte), crcBytes 0xFF [highByte w, lowByte w, c] = 0 ↔ c = crc8 w

/-- R108: each of the 256 checksums is the checksum of exactly 256 words. -/
def Obligations.ChecksumBalance : Prop :=
  ∀ c : Byte, (Finset.univ.filter fun n : Fin 65536 => crc8 (BitVec.ofFin n) = c).card = 256

/-! ### The arbitration monitor -/

/-- R203: with arbitration enabled a cycle starts with the wait, in a new window. -/
def Obligations.CycleStartsWithWait : Prop :=
  ∀ (s : State) (d : LogDraw), nextInput s = .logger d → s.log.phase = .cycleStart → s.log.rd = .idle →
    s.cfg.arbEnable = true →
    ∃ t, step s = .next t ∧ t.log = { s.log with phase := .arbWait, idleCount := 0 } ∧ t.emu = s.emu ∧ t.cfg = s.cfg

/-- R173: a sample extends the window or restarts it, and changes nothing else. -/
def Obligations.SampleUpdatesWindow : Prop :=
  ∀ (s : State) (d : LogDraw), nextInput s = .logger d → s.log.phase = .arbWait → s.log.rd = .idle →
    s.log.idleCount < s.cfg.idleMin →
    ∃ t, step s = .next t ∧ t.log = { s.log with idleCount := if d.sense then s.log.idleCount + 1 else 0 } ∧
      t.emu = s.emu ∧ t.cfg = s.cfg

/-- R174, R177, R205: at clearance, or at once where arbitration is bypassed, the cycle's first request starts. -/
def Obligations.ClearanceStartsFirstRequest : Prop :=
  ∀ (s : State) (d : LogDraw), nextInput s = .logger d → s.log.rd = .idle →
    (s.log.phase = .arbWait ∧ s.log.idleCount = s.cfg.idleMin) ∨
      (s.log.phase = .cycleStart ∧ s.cfg.arbEnable = false) →
    ∃ t, step s = .next t ∧ t.emu = s.emu ∧ t.cfg = s.cfg ∧
      t.log = { s.log with
        phase := if s.cfg.respectReady then .readyCheck else .readMeas
        cmd := if s.cfg.respectReady then 0x0202 else 0x03C4
        nwords := if s.cfg.respectReady then 1 else 8
        rd := .write
        written := { s.log.written with request := true } }

/-- R173, R175, R176: over any samples in which no `IDLE_MIN` of them in a row are high before the last, the logger
stays in the wait, and the window counts the high samples at the end. -/
def Obligations.WaitHasNoBound : Prop :=
  ∀ (samples : List Bool) (rest : List Input) (s : State),
    s.env.script = sampleInputs samples ++ rest → s.log.phase = .arbWait → s.log.rd = .idle → s.log.idleCount = 0 →
    (∀ k, k < samples.length → trailingHighs (samples.take k) < s.cfg.idleMin) →
    ∃ t, Host.Core.run Sys2Proof.core samples.length s = .next t ∧ t.log.phase = .arbWait ∧
      t.log.idleCount = trailingHighs samples ∧ t.log.issued = s.log.issued

/-! ### The reader -/

/-- R190: a request is started in `RD_IDLE` for at most 8 words, and refused for more (the refusal's form: log 16). -/
def Obligations.RequestStart : Prop :=
  ∀ (cmd : Word) (n : Nat) (s : State),
    (8 < n → startRequest cmd n s = .refused .requestTooLong) ∧
    (n ≤ 8 → s.log.rd = .idle → ∃ t, startRequest cmd n s = .next t ∧ t.log.nwords.toNat = n ∧
      t = setLog { s.log with
        cmd := cmd, nwords := t.log.nwords, rd := .write, written := { s.log.written with request := true } } s)

/-- R191: a completed command write goes to the settle delay; it carries the opcode, most significant byte first. -/
def Obligations.CommandWriteCompletes : Prop :=
  ∀ (s : State) (sense : Bool) (data : List Byte),
    nextInput s = .logger { sense := sense, target := .transport true data } → InRequest s.log .write →
    ∃ t, step s = .next t ∧ t.emu = s.emu ∧ t.cfg = s.cfg ∧
      t.log = { s.log with
        rd := .settle
        issued := s.log.issued ++ [.write s.cfg.i2cAddr [highByte s.log.cmd, lowByte s.log.cmd]] }

/-- R192, R197, R211, R234: a command write that does not complete ends the request and the cycle; no read is issued,
and the receive buffer and its count are unchanged. -/
def Obligations.TransmitErrorEndsCycle : Prop :=
  ∀ (s : State) (sense : Bool) (data : List Byte),
    nextInput s = .logger { sense := sense, target := .transport false data } → InRequest s.log .write →
    ∃ t, step s = .next t ∧ t.emu = s.emu ∧ t.cfg = s.cfg ∧
      t.log = { s.log with
        rd := .idle
        phase := .cycleEnd
        result := .err .transmitError
        events := s.log.events ++ [.transmitError s.log.cmd]
        issued := s.log.issued ++ [.write s.cfg.i2cAddr [highByte s.log.cmd, lowByte s.log.cmd]]
        written := { s.log.written with result := true } }

/-- R193, R199: after the settle delay the read follows; a request of no words completes with `Ok([])` instead, with no
read. -/
def Obligations.SettleThenRead : Prop :=
  ∀ (s : State) (d : LogDraw), nextInput s = .logger d → InRequest s.log .settle →
    (s.log.nwords ≠ 0 → ∃ t, step s = .next t ∧ t.log = { s.log with rd := .read } ∧ t.emu = s.emu ∧ t.cfg = s.cfg) ∧
    (s.log.nwords = 0 → s.log.phase = .readyCheck → ∃ t, step s = .next t ∧ t.log.result = .ok [] ∧
      t.log.issued = s.log.issued ∧ t.log.rd = .idle)

/-- R194, R196, R197, R211, R234: fewer bytes than asked for is `ShortRead`, whatever the bytes; they are in the receive
buffer and counted, and the cycle ends. -/
def Obligations.ShortReadEndsCycle : Prop :=
  ∀ (s : State) (sense ok : Bool) (data : List Byte),
    nextInput s = .logger { sense := sense, target := .transport ok data } → InRequest s.log .read →
    s.log.nwords.toNat ≤ 8 → data.length < 3 * s.log.nwords.toNat →
    ∃ t, step s = .next t ∧ t.emu = s.emu ∧ t.cfg = s.cfg ∧ t.log.rxCount.toNat = data.length ∧
      (∀ a, byteAt t.log.rx a = (data[a]?).or (byteAt s.log.rx a)) ∧
      t.log = { s.log with
        rx := t.log.rx
        rxCount := t.log.rxCount
        rd := .idle
        phase := .cycleEnd
        result := .err .shortRead
        events := s.log.events ++ [.shortRead s.log.cmd t.log.rxCount]
        issued := s.log.issued ++ [.read s.cfg.i2cAddr (3 * s.log.nwords.toNat)]
        written := { s.log.written with result := true } }

/-- R194, R195, R197, R211, R234: where all the bytes came, they are in the receive buffer and counted, the first frame
that fails the checksum test is reported, and the cycle ends. An answer of more bytes is cut (log 11). -/
def Obligations.FirstBadFrameReported : Prop :=
  ∀ (s : State) (sense ok : Bool) (data : List Byte) (j : Nat),
    nextInput s = .logger { sense := sense, target := .transport ok data } → InRequest s.log .read →
    s.log.nwords.toNat ≤ 8 → 3 * s.log.nwords.toNat ≤ data.length → j < s.log.nwords.toNat →
    (∀ k, k < j → ∃ w, FrameOf data k (.ok w)) → FrameOf data j (.error .checksumError) →
    ∃ t, step s = .next t ∧ t.emu = s.emu ∧ t.cfg = s.cfg ∧ Received data (3 * s.log.nwords.toNat) s.log t.log ∧
      t.log = { s.log with
        rx := t.log.rx
        rxCount := t.log.rxCount
        rd := .idle
        phase := .cycleEnd
        result := .err .checksumError
        events := s.log.events ++ [.checksumError s.log.cmd j]
        issued := s.log.issued ++ [.read s.cfg.i2cAddr (3 * s.log.nwords.toNat)]
        written := { s.log.written with result := true } }

/-- R194, R199, R206: a ready check that succeeds goes on to the measured read where its word is the safe value, else it
raises `NotReady` and ends the cycle. An answer of more bytes than asked for is cut (`rest`: log 11). -/
def Obligations.ReadyCheckDecides : Prop :=
  ∀ (s : State) (sense ok : Bool) (w : Word) (rest : List Byte),
    nextInput s = .logger { sense := sense, target := .transport ok (frameBytes w ++ rest) } →
    s.log.phase = .readyCheck → s.log.rd = .read → s.log.written.request = true → s.log.nwords = 1 →
    ∃ t, step s = .next t ∧ Received (frameBytes w ++ rest) 3 s.log t.log ∧ t.log.result = .ok [w] ∧
      t.log.records = s.log.records ∧
      (w = s.cfg.safeReadyValue → t.log.phase = .readMeas ∧ RequestIs t.log 0x03C4 8 ∧ t.log.events = s.log.events) ∧
      (w ≠ s.cfg.safeReadyValue → t.log.phase = .cycleEnd ∧ t.log.rd = .idle ∧
        t.log.events = s.log.events ++ [.notReady w])

/-- R194, R199, R207, R208: a measured read or a raw read that succeeds stores its words and starts the next request. An
answer of more bytes than asked for is cut (`rest`: log 11). -/
def Obligations.ReadsAdvanceTheCycle : Prop :=
  ∀ (s : State) (sense ok : Bool),
    (∀ (m : Measured) (rest : List Byte),
      nextInput s = .logger { sense := sense, target := .transport ok (responseBytes (measuredWords m) ++ rest) } →
      s.log.phase = .readMeas → RequestIs s.log 0x03C4 8 → s.log.rd = .read →
      ∃ t, step s = .next t ∧ Received (responseBytes (measuredWords m) ++ rest) 24 s.log t.log ∧
        t.log.result = .ok (measuredWords m) ∧ t.log.meas = m ∧ t.log.phase = .readRaw ∧
        RequestIs t.log 0x03D2 4 ∧ t.log.events = s.log.events ∧ t.log.records = s.log.records) ∧
    (∀ (r : Raw) (rest : List Byte),
      nextInput s = .logger { sense := sense, target := .transport ok (responseBytes (rawWords r) ++ rest) } →
      s.log.phase = .readRaw → RequestIs s.log 0x03D2 4 → s.log.rd = .read →
      ∃ t, step s = .next t ∧ Received (responseBytes (rawWords r) ++ rest) 12 s.log t.log ∧
        t.log.result = .ok (rawWords r) ∧ t.log.raw = r ∧ t.log.meas = s.log.meas ∧
        t.log.phase = .readMyst ∧ RequestIs t.log 0x03F5 4 ∧ t.log.events = s.log.events ∧
        t.log.records = s.log.records)

/-- R194, R209, R213: a raw-mystery read that succeeds appends the record of the words held and the words just read, and
ends the cycle. An answer of more bytes than asked for is cut (`rest`: log 11). -/
def Obligations.LastReadEmitsRecord : Prop :=
  ∀ (s : State) (sense ok : Bool) (r : RawMystery) (rest : List Byte),
    nextInput s = .logger { sense := sense, target := .transport ok (responseBytes (mystWords r) ++ rest) } →
    s.log.phase = .readMyst → RequestIs s.log 0x03F5 4 → s.log.rd = .read →
    s.log.written.meas = true → s.log.written.raw = true →
    ∃ t, step s = .next t ∧ Received (responseBytes (mystWords r) ++ rest) 12 s.log t.log ∧ t.log.myst = r ∧
      t.log.records = s.log.records ++ [{ meas := s.log.meas, raw := s.log.raw, myst := r }] ∧
      t.log.phase = .cycleEnd ∧ t.log.rd = .idle ∧ t.log.events = s.log.events ∧ t.emu = s.emu

/-- R210: the cycle end goes back to the cycle start, and changes nothing else. -/
def Obligations.CycleEndRestarts : Prop :=
  ∀ (s : State) (d : LogDraw), nextInput s = .logger d → s.log.phase = .cycleEnd → s.log.rd = .idle →
    ∃ t, step s = .next t ∧ t.log = { s.log with phase := .cycleStart } ∧ t.emu = s.emu ∧ t.cfg = s.cfg

/-- R198: no step of the machine, from any state, raises `IncompleteMessage`. -/
def Obligations.IncompleteMessageUnreachable : Prop :=
  ∀ (s t : State) (cmd : Word) (n : Nat), step s = .next t → .incompleteMessage cmd n ∈ t.log.events →
    .incompleteMessage cmd n ∈ s.log.events

/-! ### Rules of the whole machine -/

/-- R261: the emulator right after reset. -/
def Obligations.EmulatorReset : Prop :=
  ∀ p : Params, (State.resetWith p).emu.fsm = .idle ∧ (State.resetWith p).emu.txLen = 0 ∧
    (∀ a, a < 24 → readByte (State.resetWith p).emu.tx a = .fault .noValue) ∧
    (State.resetWith p).emu.pm25 = p.pm25Init ∧ (State.resetWith p).emu.tickPending = false ∧
    (State.resetWith p).emu.events = [] ∧ (∀ bytes, ∃ t, writeReceived bytes (State.resetWith p) = .next t) ∧
    (∀ k, ∃ t, busRead k (State.resetWith p) = .next t)

/-- R262: the logger right after reset; a register that holds no value faults on a read. -/
def Obligations.LoggerReset : Prop :=
  ∀ p : Params, (State.resetWith p).log.phase = .cycleStart ∧ (State.resetWith p).log.rd = .idle ∧
    (State.resetWith p).log.idleCount = 0 ∧ (State.resetWith p).log.rxCount = 0 ∧
    logCmd (State.resetWith p).log = .fault .noValue ∧ logNwords (State.resetWith p).log = .fault .noValue ∧
    (∀ a, a < 24 → readByte (State.resetWith p).log.rx a = .fault .noValue) ∧
    (State.resetWith p).log.written.result = false ∧
    logMeas (State.resetWith p).log = .fault .noValue ∧ logRaw (State.resetWith p).log = .fault .noValue ∧
    logMyst (State.resetWith p).log = .fault .noValue ∧
    (State.resetWith p).log.events = [] ∧ (State.resetWith p).log.records = [] ∧
    ∀ d, loggerTurn d (State.resetWith p) = cycleStart (State.resetWith p)

/-- R260: each unit resets on its own, to its values right after reset, and the other unit and the parameters stay (a
reset as an input between steps: log 8). -/
def Obligations.UnitsResetIndependently : Prop :=
  ∀ s : State,
    (nextInput s = .resetEmu → ∃ t, step s = .next t ∧ t.emu = (State.resetWith s.cfg).emu ∧ t.log = s.log ∧
      t.cfg = s.cfg) ∧
    (nextInput s = .resetLog → ∃ t, step s = .next t ∧ t.log = (State.resetWith s.cfg).log ∧ t.emu = s.emu ∧
      t.cfg = s.cfg)

/-- The invariant of the step boundaries holds right after reset under every admissible configuration, the integrator's
among them (R24, R26, R265). -/
def Obligations.ResetMeetsInvariant : Prop :=
  (∀ p : Params, p.admissible = true → BoundaryInv (State.resetWith p)) ∧ BoundaryInv State.reset

/-- R24, R26, R82, R123, R230: from every state of the invariant, whatever the environment does next, the step answers a
next state, which keeps the invariant: no trap, no fault, no refusal. -/
def Obligations.EveryStepAnswersAndKeepsInvariant : Prop :=
  ∀ s : State, BoundaryInv s → ∃ t, step s = .next t ∧ BoundaryInv t

/-- R8: no step changes a parameter. -/
def Obligations.ParametersNeverChange : Prop := ∀ s t : State, step s = .next t → t.cfg = s.cfg

/-- R21, R70, R216: the logger changes in its own turns and its own reset alone; and the emulator is as before in every
turn of the logger that issues no transaction, in every turn against the transport, and in the logger's reset (log 8).
What is left is a transaction the logger issues to an emulator target, R216's own case. -/
def Obligations.UnitsShareNoState : Prop :=
  ∀ s t : State, step s = .next t →
    ((∀ d, nextInput s ≠ .logger d) → nextInput s ≠ .resetLog → t.log = s.log) ∧
    (∀ d, nextInput s = .logger d → t.log.issued = s.log.issued ∨ (∃ ok data, d.target = .transport ok data) →
      t.emu = s.emu) ∧
    (nextInput s = .resetLog → t.emu = s.emu)

/-- R21, R70: the emulator does not observe the logger: two machines that differ in their loggers alone have the same
emulator after any input but a turn of the logger, given equal draws (log 5). -/
def Obligations.EmulatorIgnoresLogger : Prop :=
  ∀ (s : State) (l : Log) (t : State), (∀ d, nextInput s ≠ .logger d) → step s = .next t →
    ∃ u, step (setLog l s) = .next u ∧ u.emu = t.emu

/-- R231, R236, R237: but for the unit's own reset, a step appends at most one event to a unit's event output, and
takes none away. -/
def Obligations.AtMostOneEventPerStep : Prop :=
  ∀ s t : State, step s = .next t →
    (nextInput s ≠ .resetEmu →
      t.emu.events = s.emu.events ∨ ∃ ev, t.emu.events = s.emu.events ++ [ev]) ∧
    (nextInput s ≠ .resetLog →
      t.log.events = s.log.events ∨ ∃ ev, t.log.events = s.log.events ++ [ev])

/-- R211: a turn of `LOG` that reports anything ends the cycle, with no record. -/
def Obligations.FirstFailureEndsCycle : Prop :=
  ∀ (s t : State) (d : LogDraw), nextInput s = .logger d → step s = .next t → t.log.events ≠ s.log.events →
    t.log.phase = .cycleEnd ∧ t.log.rd = .idle ∧ t.log.records = s.log.records

/-- R207, R208, R212, R213: but for the logger's reset, a step changes the record output only where it completes the
raw-mystery read with `Ok`, and by one record: the words held and the words just read. The words held are the same
cycle's: a step enters `READ_MYST` only from `READ_RAW`, with `Ok` and its words now in `log.raw`; a step enters
`READ_RAW` only from `READ_MEAS`, with `Ok` and its words now in `log.meas`; and no other step writes either. -/
def Obligations.RecordsOnlyFromCompleteCycles : Prop :=
  ∀ s t : State, step s = .next t → nextInput s ≠ .resetLog →
    (t.log.records ≠ s.log.records →
      s.log.phase = .readMyst ∧ s.log.written.meas = true ∧ s.log.written.raw = true ∧
      t.log.result = .ok (mystWords t.log.myst) ∧ t.log.phase = .cycleEnd ∧
      t.log.records = s.log.records ++ [{ meas := s.log.meas, raw := s.log.raw, myst := t.log.myst }]) ∧
    (t.log.phase = .readRaw → s.log.phase ≠ .readRaw →
      s.log.phase = .readMeas ∧ t.log.result = .ok (measuredWords t.log.meas)) ∧
    (t.log.phase = .readMyst → s.log.phase ≠ .readMyst →
      s.log.phase = .readRaw ∧ t.log.result = .ok (rawWords t.log.raw) ∧ t.log.meas = s.log.meas) ∧
    (t.log.meas ≠ s.log.meas → s.log.phase = .readMeas ∧ t.log.phase = .readRaw) ∧
    (t.log.raw ≠ s.log.raw → s.log.phase = .readRaw ∧ t.log.phase = .readMyst)

/-- R214: the logger sends only the four opcodes of its phases, each in its phase, and never `START_MEASUREMENT`. -/
def Obligations.LoggerSendsOnlyItsOpcodes : Prop :=
  ∀ s t : State, BoundaryInv s → step s = .next t → nextInput s ≠ .resetLog → t.log.issued ≠ s.log.issued →
    ∃ tx, t.log.issued = s.log.issued ++ [tx] ∧ mayIssue s.cfg s.log.phase tx

/-- R216: with an emulator target, a command write is that emulator's command event in the same step, with `ok = true`;
a response read is its bus-read event in the same step, and the returned bytes are what it returned. -/
def Obligations.CompositionIsOneStep : Prop :=
  ∀ (s : State) (sense : Bool), BoundaryInv s → nextInput s = .logger { sense := sense, target := .emulator } →
    (InRequest s.log .write →
      ∃ t u, exec (decodeOpcode s.log.cmd) (consumeInput s) = .next u ∧ step s = .next t ∧ t.emu = u.emu ∧
        t.log.rd = .settle ∧ t.log.events = s.log.events) ∧
    (InRequest s.log .read →
      ∃ t u, busRead (3 * s.log.nwords.toNat) (consumeInput s) = .next u ∧ step s = .next t ∧ t.emu = u.emu ∧
        t.log.rxCount.toNat = 3 * s.log.nwords.toNat ∧
        ∀ j, j < 3 * s.log.nwords.toNat → byteAt t.log.rx j = u.emu.busOut[j]?)

/-- R203 to R216: a whole polling cycle of the logger against an emulator of this block, no other input intervening and
arbitration bypassed: the record it appends holds the emulator's configured words and its counter, no event is raised
in either unit, the emulator is left in `Idle` with a tick pending and its counter unchanged, and the logger is at the
start of the next cycle. -/
def Obligations.CycleAgainstEmulatorYieldsItsRecord : Prop :=
  ∀ (s : State) (rest : List Input) (n : Nat), BoundaryInv s → s.log.phase = .cycleStart → s.cfg.arbEnable = false →
    (s.cfg.respectReady = false ∧ n = 11 ∨
      s.cfg.respectReady = true ∧ s.cfg.safeReadyValue = s.cfg.readyFlag ∧ n = 14) →
    s.env.script = List.replicate n loggerOnEmulator ++ rest →
    ∃ t, Host.Core.run Sys2Proof.core n s = .next t ∧ t.log.phase = .cycleStart ∧
      t.log.records = s.log.records ++
        [{ meas := { pm1_0 := s.cfg.recMeasPm1_0, pm2_5 := s.emu.pm25, pm4_0 := s.cfg.recMeasPm4_0,
                     pm10_0 := s.cfg.recMeasPm10_0, humidity := s.cfg.recMeasHum, temperature := s.cfg.recMeasTemp,
                     vocIndex := s.cfg.recMeasVoc, noxIndex := s.cfg.recMeasNox },
           raw := s.cfg.recRaw, myst := s.cfg.recMyst }] ∧
      t.log.events = s.log.events ∧ t.emu.events = s.emu.events ∧ t.emu.fsm = .idle ∧ t.emu.txLen = 0 ∧
      t.emu.tickPending = true ∧ t.emu.pm25 = s.emu.pm25
end

