-- ==== Sys2Proof/Laws/State.lean ====
section
/-! SUPPORT. The field lemmas of the state's updates, each true by `rfl`, and the lemmas of `andThen`: later proofs
rewrite with these and unfold no update. -/

namespace Sys2Proof.Laws

open Sys2Proof.Machine

/-! ### Sequencing -/

variable {α β : Type}

@[simp] theorem andThen_next (a : α) (f : α → Result β) : andThen (.next a) f = f a := rfl
@[simp] theorem andThen_fault (r : Fault) (f : α → Result β) : andThen (.fault r) f = .fault r := rfl
@[simp] theorem andThen_refused (r : Refusal) (f : α → Result β) : andThen (.refused r) f = .refused r := rfl

/-- A sequence answers a value exactly where its first part does and the rest does from there. -/
theorem andThen_eq_next {o : Result α} {f : α → Result β} {b : β} :
    andThen o f = .next b ↔ ∃ a, o = .next a ∧ f a = .next b := by
  cases o <;> simp

/-! ### `setEmu`, `setLog` -/

variable (s : State) (e : Emu) (l : Log)

@[simp] theorem setEmu_cfg : (setEmu e s).cfg = s.cfg := rfl
@[simp] theorem setEmu_emu : (setEmu e s).emu = e := rfl
@[simp] theorem setEmu_log : (setEmu e s).log = s.log := rfl
@[simp] theorem setEmu_env : (setEmu e s).env = s.env := rfl
@[simp] theorem setLog_cfg : (setLog l s).cfg = s.cfg := rfl
@[simp] theorem setLog_emu : (setLog l s).emu = s.emu := rfl
@[simp] theorem setLog_log : (setLog l s).log = l := rfl
@[simp] theorem setLog_env : (setLog l s).env = s.env := rfl
@[simp] theorem setEmu_setEmu (e' : Emu) : setEmu e (setEmu e' s) = setEmu e s := rfl
@[simp] theorem setLog_setLog (l' : Log) : setLog l (setLog l' s) = setLog l s := rfl

/-! ### Events (R231) -/

variable (ev : Event)

@[simp] theorem raiseEmu_cfg : (raiseEmu ev s).cfg = s.cfg := rfl
@[simp] theorem raiseEmu_log : (raiseEmu ev s).log = s.log := rfl
@[simp] theorem raiseEmu_env : (raiseEmu ev s).env = s.env := rfl
@[simp] theorem raiseEmu_events : (raiseEmu ev s).emu.events = s.emu.events ++ [ev] := rfl
@[simp] theorem raiseEmu_fsm : (raiseEmu ev s).emu.fsm = s.emu.fsm := rfl
@[simp] theorem raiseEmu_tx : (raiseEmu ev s).emu.tx = s.emu.tx := rfl
@[simp] theorem raiseEmu_txLen : (raiseEmu ev s).emu.txLen = s.emu.txLen := rfl
@[simp] theorem raiseEmu_pm25 : (raiseEmu ev s).emu.pm25 = s.emu.pm25 := rfl
@[simp] theorem raiseEmu_tickPending : (raiseEmu ev s).emu.tickPending = s.emu.tickPending := rfl
@[simp] theorem raiseEmu_busOut : (raiseEmu ev s).emu.busOut = s.emu.busOut := rfl
@[simp] theorem raiseLog_cfg : (raiseLog ev s).cfg = s.cfg := rfl
@[simp] theorem raiseLog_emu : (raiseLog ev s).emu = s.emu := rfl
@[simp] theorem raiseLog_env : (raiseLog ev s).env = s.env := rfl
@[simp] theorem raiseLog_events : (raiseLog ev s).log.events = s.log.events ++ [ev] := rfl
@[simp] theorem raiseLog_phase : (raiseLog ev s).log.phase = s.log.phase := rfl
@[simp] theorem raiseLog_rd : (raiseLog ev s).log.rd = s.log.rd := rfl
@[simp] theorem raiseLog_cmd : (raiseLog ev s).log.cmd = s.log.cmd := rfl
@[simp] theorem raiseLog_nwords : (raiseLog ev s).log.nwords = s.log.nwords := rfl
@[simp] theorem raiseLog_rx : (raiseLog ev s).log.rx = s.log.rx := rfl
@[simp] theorem raiseLog_rxCount : (raiseLog ev s).log.rxCount = s.log.rxCount := rfl
@[simp] theorem raiseLog_result : (raiseLog ev s).log.result = s.log.result := rfl
@[simp] theorem raiseLog_meas : (raiseLog ev s).log.meas = s.log.meas := rfl
@[simp] theorem raiseLog_raw : (raiseLog ev s).log.raw = s.log.raw := rfl
@[simp] theorem raiseLog_myst : (raiseLog ev s).log.myst = s.log.myst := rfl
@[simp] theorem raiseLog_idleCount : (raiseLog ev s).log.idleCount = s.log.idleCount := rfl
@[simp] theorem raiseLog_records : (raiseLog ev s).log.records = s.log.records := rfl
@[simp] theorem raiseLog_issued : (raiseLog ev s).log.issued = s.log.issued := rfl
@[simp] theorem raiseLog_written : (raiseLog ev s).log.written = s.log.written := rfl

/-! ### The flag of the tick slot (R28) -/

@[simp] theorem setTick_cfg : (setTick s).cfg = s.cfg := rfl
@[simp] theorem setTick_emu : (setTick s).emu = { s.emu with tickPending := true } := rfl
@[simp] theorem setTick_log : (setTick s).log = s.log := rfl
@[simp] theorem setTick_env : (setTick s).env = s.env := rfl

/-! ### Results, cycle, transactions (R191, R197, R210) -/

@[simp] theorem storeResult_cfg (r : RequestResult) : (storeResult r s).cfg = s.cfg := rfl
@[simp] theorem storeResult_emu (r : RequestResult) : (storeResult r s).emu = s.emu := rfl
@[simp] theorem storeResult_env (r : RequestResult) : (storeResult r s).env = s.env := rfl
@[simp] theorem storeResult_log (r : RequestResult) :
    (storeResult r s).log =
      { s.log with result := r, rd := .idle, written := { s.log.written with result := true } } := rfl
@[simp] theorem endCycle_cfg : (endCycle s).cfg = s.cfg := rfl
@[simp] theorem endCycle_emu : (endCycle s).emu = s.emu := rfl
@[simp] theorem endCycle_env : (endCycle s).env = s.env := rfl
@[simp] theorem endCycle_log : (endCycle s).log = { s.log with phase := .cycleEnd } := rfl
@[simp] theorem cycleEnd_cfg : (cycleEnd s).cfg = s.cfg := rfl
@[simp] theorem cycleEnd_emu : (cycleEnd s).emu = s.emu := rfl
@[simp] theorem cycleEnd_env : (cycleEnd s).env = s.env := rfl
@[simp] theorem cycleEnd_log : (cycleEnd s).log = { s.log with phase := .cycleStart } := rfl
@[simp] theorem issue_cfg (t : BusTx) : (issue t s).cfg = s.cfg := rfl
@[simp] theorem issue_emu (t : BusTx) : (issue t s).emu = s.emu := rfl
@[simp] theorem issue_env (t : BusTx) : (issue t s).env = s.env := rfl
@[simp] theorem issue_log (t : BusTx) : (issue t s).log = { s.log with issued := s.log.issued ++ [t] } := rfl
@[simp] theorem arbStart_cfg : (arbStart s).cfg = s.cfg := rfl
@[simp] theorem arbStart_emu : (arbStart s).emu = s.emu := rfl
@[simp] theorem arbStart_env : (arbStart s).env = s.env := rfl
@[simp] theorem arbStart_log : (arbStart s).log = { s.log with idleCount := 0 } := rfl
@[simp] theorem arbSample_cfg (v : Bool) : (arbSample v s).cfg = s.cfg := rfl
@[simp] theorem arbSample_emu (v : Bool) : (arbSample v s).emu = s.emu := rfl
@[simp] theorem arbSample_env (v : Bool) : (arbSample v s).env = s.env := rfl
@[simp] theorem arbSample_log (v : Bool) :
    (arbSample v s).log = { s.log with idleCount := if v then s.log.idleCount + 1 else 0 } := rfl

/-! ### The environment's part and the unit resets -/

@[simp] theorem consumeInput_cfg : (consumeInput s).cfg = s.cfg := rfl
@[simp] theorem consumeInput_emu : (consumeInput s).emu = s.emu := rfl
@[simp] theorem consumeInput_log : (consumeInput s).log = s.log := rfl
@[simp] theorem consumeInput_script : (consumeInput s).env.script = s.env.script.tail := rfl
@[simp] theorem consumeInput_steps : (consumeInput s).env.steps = s.env.steps + 1 := rfl
@[simp] theorem resetEmulator_cfg : (resetEmulator s).cfg = s.cfg := rfl
@[simp] theorem resetEmulator_emu : (resetEmulator s).emu = Emu.reset s.cfg := rfl
@[simp] theorem resetEmulator_log : (resetEmulator s).log = s.log := rfl
@[simp] theorem resetEmulator_env : (resetEmulator s).env = s.env := rfl
@[simp] theorem resetLogger_cfg : (resetLogger s).cfg = s.cfg := rfl
@[simp] theorem resetLogger_emu : (resetLogger s).emu = s.emu := rfl
@[simp] theorem resetLogger_log : (resetLogger s).log = Log.reset := rfl
@[simp] theorem resetLogger_env : (resetLogger s).env = s.env := rfl

end Sys2Proof.Laws
end

