-- ==== Sys2Proof/Laws/Memory.lean ====
section
/-! SUPPORT. The laws of the buffer memories: a byte read after a write, the canonical form, and what the sequence
operations `memRead` and `memWrite` do. -/

namespace Sys2Proof.Laws

open Sys2Proof.Machine

@[simp] theorem byteAt_nil (a : Nat) : byteAt [] a = none := rfl

/-- A byte read after a write: the byte written at its index, the old one everywhere else. -/
@[simp] theorem byteAt_setByte (m : Memory) (a b : Nat) (v : Byte) :
    byteAt (setByte m a v) b = if b = a then some v else byteAt m b := by
  induction m with
  | nil => rfl
  | cons c m ih =>
    obtain ⟨k, u⟩ := c
    simp only [setByte]
    split
    · simp only [byteAt]
    · split
      · rename_i h; subst h; simp only [byteAt]; split <;> simp_all
      · simp only [byteAt, ih]; split
        · rename_i h1 h2 h3; subst h3; simp [Ne.symm h2]
        · rfl

/-- Every index of a buffer in rising form is above its first. -/
theorem rising_cons {a : Nat} {v : Byte} {m : Memory} :
    Memory.rising ((a, v) :: m) = true ↔ (∀ c ∈ m, a < c.1) ∧ Memory.rising m = true := by
  induction m generalizing a v with
  | nil => simp [Memory.rising]
  | cons c m ih =>
    obtain ⟨b, u⟩ := c
    simp only [Memory.rising, Bool.and_eq_true, decide_eq_true_eq, List.mem_cons, forall_eq_or_imp]
    constructor
    · rintro ⟨h, hr⟩
      exact ⟨⟨h, fun c hc => lt_trans h ((ih.mp hr).1 c hc)⟩, hr⟩
    · rintro ⟨⟨h, _⟩, hr⟩
      exact ⟨h, hr⟩

/-- The indices of a buffer after a write: the one written and the old ones. -/
theorem mem_setByte {m : Memory} {a : Nat} {v : Byte} {c : Host.Cell} (h : c ∈ setByte m a v) :
    c.1 = a ∨ c ∈ m := by
  induction m with
  | nil => simp [setByte] at h; simp [h]
  | cons d m ih =>
    obtain ⟨k, u⟩ := d
    simp only [setByte] at h
    split at h
    · simp only [List.mem_cons] at h ⊢; rcases h with rfl | rfl | h <;> simp_all
    · split at h
      · simp only [List.mem_cons] at h ⊢; rcases h with rfl | h <;> simp_all
      · simp only [List.mem_cons] at h ⊢
        rcases h with rfl | h
        · simp
        · rcases ih h with h | h <;> simp [h]

theorem rising_setByte {m : Memory} (a : Nat) (v : Byte) (h : Memory.rising m = true) :
    Memory.rising (setByte m a v) = true := by
  induction m with
  | nil => rfl
  | cons c m ih =>
    obtain ⟨k, u⟩ := c
    obtain ⟨hk, hm⟩ := rising_cons.mp h
    simp only [setByte]
    split
    · rename_i hlt
      refine rising_cons.mpr ⟨?_, h⟩
      simp only [List.mem_cons, forall_eq_or_imp]
      exact ⟨hlt, fun c hc => lt_trans hlt (hk c hc)⟩
    · split
      · rename_i heq; subst heq; exact rising_cons.mpr ⟨hk, hm⟩
      · refine rising_cons.mpr ⟨fun c hc => ?_, ih hm⟩
        rcases mem_setByte hc with h' | h'
        · omega
        · exact hk c h'

/-- A write to an index that exists keeps the canonical form. -/
theorem wf_setByte {m : Memory} {a : Nat} (v : Byte) (h : Memory.wf m = true) (ha : a < bufferBytes) :
    Memory.wf (setByte m a v) = true := by
  simp only [Memory.wf, Bool.and_eq_true, List.all_eq_true, decide_eq_true_eq] at h ⊢
  refine ⟨rising_setByte a v h.1, fun c hc => ?_⟩
  rcases mem_setByte hc with h' | h'
  · omega
  · exact h.2 c h'

@[simp] theorem wf_nil : Memory.wf [] = true := rfl

/-- `memWrite` answers exactly where every byte goes to an index that exists. -/
theorem memWrite_next_iff {m m' : Memory} {a : Nat} {vs : List Byte} (h : memWrite m a vs = .next m') :
    vs = [] ∨ a + vs.length ≤ bufferBytes := by
  induction vs generalizing m a with
  | nil => simp
  | cons v vs ih =>
    simp only [memWrite] at h
    split at h
    · rcases ih h with h' | h'
      · subst h'; simp; omega
      · simp; omega
    · cases h

/-- Inside the buffer, `memWrite` answers the buffer with the bytes at their indices, every other byte as before, in
canonical form if it was. -/
theorem memWrite_spec (m : Memory) (a : Nat) (vs : List Byte) (h : a + vs.length ≤ bufferBytes) :
    ∃ m', memWrite m a vs = .next m' ∧
      (∀ b, byteAt m' b = if a ≤ b then (vs[b - a]?).or (byteAt m b) else byteAt m b) ∧
      (Memory.wf m = true → Memory.wf m' = true) := by
  induction vs generalizing m a with
  | nil => exact ⟨m, rfl, by simp, id⟩
  | cons v vs ih =>
    simp only [List.length_cons] at h
    obtain ⟨m', hw, hb, hwf⟩ := ih (setByte m a v) (a + 1) (by omega)
    have ha : a < bufferBytes := by omega
    refine ⟨m', by simp [memWrite, ha, hw], fun b => ?_, fun hm => hwf (wf_setByte v hm ha)⟩
    rw [hb b, byteAt_setByte]
    by_cases h1 : a + 1 ≤ b
    · have h2 : b - a = (b - (a + 1)) + 1 := by omega
      have h3 : a ≤ b := by omega
      have h4 : b ≠ a := by omega
      simp [h1, h2, h3, h4]
    · by_cases h2 : b = a
      · subst h2; simp
      · have : ¬ a ≤ b := by omega
        simp [h1, h2, this]

/-- Whatever `memWrite` answers keeps the canonical form. -/
theorem memWrite_wf {m m' : Memory} {a : Nat} {vs : List Byte} (h : memWrite m a vs = .next m')
    (hm : Memory.wf m = true) : Memory.wf m' = true := by
  rcases memWrite_next_iff h with rfl | hl
  · simp [memWrite] at h; exact h ▸ hm
  · obtain ⟨m'', hw, -, hwf⟩ := memWrite_spec m a vs hl
    rw [hw] at h
    cases h
    exact hwf hm

theorem readByte_eq_next {m : Memory} {a : Nat} {v : Byte} :
    readByte m a = .next v ↔ a < bufferBytes ∧ byteAt m a = some v := by
  simp only [readByte]
  split
  · rename_i h; cases byteAt m a <;> simp [h]
  · rename_i h; simp [h]

/-- `memRead` answers the bytes of its range, each of which holds a value. -/
theorem memRead_next {m : Memory} {a n : Nat} {vs : List Byte} (h : memRead m a n = .next vs) :
    vs.length = n ∧ ∀ j, j < n → vs[j]? = byteAt m (a + j) := by
  induction n generalizing a vs with
  | zero => simp [memRead] at h; subst h; simp
  | succ n ih =>
    simp only [memRead] at h
    obtain ⟨v, hv, h⟩ := andThen_eq_next.mp h
    obtain ⟨vs', hvs, h⟩ := andThen_eq_next.mp h
    cases h
    obtain ⟨hl, hj⟩ := ih hvs
    refine ⟨by simp [hl], fun j hjn => ?_⟩
    cases j with
    | zero => simpa using ((readByte_eq_next.mp hv).2).symm
    | succ j => simpa [Nat.add_assoc, Nat.add_comm 1] using hj j (by omega)

/-- `memRead` answers where every byte of its range exists and holds a value. -/
theorem memRead_answers {m : Memory} {a n : Nat} (hn : a + n ≤ bufferBytes)
    (h : ∀ j, j < n → (byteAt m (a + j)).isSome = true) : ∃ vs, memRead m a n = .next vs := by
  induction n generalizing a with
  | zero => exact ⟨[], rfl⟩
  | succ n ih =>
    obtain ⟨v, hv⟩ := Option.isSome_iff_exists.mp (h 0 (by omega))
    obtain ⟨vs, hvs⟩ := ih (a := a + 1) (by omega) (fun j hj => by
      simpa [Nat.add_assoc, Nat.add_comm 1] using h (j + 1) (by omega))
    have : readByte m a = .next v := readByte_eq_next.mpr ⟨by omega, hv⟩
    exact ⟨v :: vs, by simp [memRead, this, hvs]⟩

end Sys2Proof.Laws
end

