-- ==== Sys2Proof/Laws/Codec.lean ====
section
/-! SUPPORT. The laws of words on the wire: the two halves of a word, the opcode map, and the checksum's bit step. -/

namespace Sys2Proof.Laws

open Sys2Proof.Machine

/-- A word is its two bytes, most significant first (R61). -/
@[simp] theorem wordOf_bytes (w : Word) : wordOf (highByte w) (lowByte w) = w := by
  apply BitVec.eq_of_getLsbD_eq
  intro i hi
  simp only [wordOf, highByte, lowByte, BitVec.getLsbD_or, BitVec.getLsbD_shiftLeft, BitVec.getLsbD_setWidth,
    BitVec.getLsbD_extractLsb']
  by_cases h : i < 8
  · simp [h, hi]
  · have : i - 8 < 8 := by omega
    have h16 : i - 8 < 16 := by omega
    simp [h, hi, this, h16, show 8 + (i - 8) = i by omega]

@[simp] theorem highByte_wordOf (a b : Byte) : highByte (wordOf a b) = a := by
  apply BitVec.eq_of_getLsbD_eq
  intro i hi
  have h16 : 8 + i < 16 := by omega
  simp [wordOf, highByte, hi, h16]

@[simp] theorem lowByte_wordOf (a b : Byte) : lowByte (wordOf a b) = b := by
  apply BitVec.eq_of_getLsbD_eq
  intro i hi
  simp [wordOf, lowByte, hi, show i < 16 by omega]

/-- The decoder reads a row's opcode as the row (R84, R86): the opcode of a decoded word is the word. -/
@[simp] theorem encodeOpcode_decodeOpcode (op : Word) : encodeOpcode (decodeOpcode op) = op := by
  simp only [decodeOpcode]
  split
  · rename_i h; rw [h]; rfl
  · split
    · rename_i h; rw [h]; rfl
    · split
      · rename_i h; rw [h]; rfl
      · split
        · rename_i h; rw [h]; rfl
        · split
          · rename_i h; rw [h]; rfl
          · rfl

/-- Every decoded word is a well-formed command (R86). -/
theorem wellFormed_decodeOpcode (op : Word) : (decodeOpcode op).wellFormed = true := by
  simp only [decodeOpcode]
  split
  · rfl
  · split
    · rfl
    · split
      · rfl
      · split
        · rfl
        · split
          · rfl
          · simp_all [Instr.wellFormed, opcodeIsUnnamed, namedOpcodes]

/-- A write of two bytes or more is the command of its first two. -/
@[simp] theorem decode_cons_cons (b0 b1 : Byte) (bs : List Byte) :
    decode (b0 :: b1 :: bs) = .ok (decodeOpcode (wordOf b0 b1)) := rfl

@[simp] theorem decode_nil : decode [] = .error .tooShort := rfl
@[simp] theorem decode_one (b : Byte) : decode [b] = .error .tooShort := rfl

/-- The decoder answers a frame's word exactly where the third byte is the checksum of the first two (R106). -/
theorem decodeFrame_ok {b0 b1 b2 : Byte} {w : Word} :
    decodeFrame b0 b1 b2 = .ok w ↔ b2 = crc8 (wordOf b0 b1) ∧ w = wordOf b0 b1 := by
  simp only [decodeFrame]
  split
  · rename_i h; simp [h, eq_comm]
  · rename_i h; simp [h]

/-- The shift and XOR of R101 is linear in the accumulator. -/
theorem crcBit_xor (a b : Byte) : crcBit (a ^^^ b) = crcBit a ^^^ crcBit b := by
  simp only [crcBit, BitVec.getLsbD_xor, BitVec.shiftLeft_xor_distrib]
  generalize a <<< 1 = x, b <<< 1 = y
  cases a.getLsbD 7 <;> cases b.getLsbD 7
  · rfl
  · change x ^^^ y ^^^ crcPoly = x ^^^ (y ^^^ crcPoly); ac_rfl
  · change x ^^^ y ^^^ crcPoly = x ^^^ crcPoly ^^^ y; ac_rfl
  · change x ^^^ y = x ^^^ crcPoly ^^^ (y ^^^ crcPoly)
    rw [show x ^^^ crcPoly ^^^ (y ^^^ crcPoly) = x ^^^ y ^^^ (crcPoly ^^^ crcPoly) by ac_rfl]
    simp

theorem crcBits_xor (n : Nat) (a b : Byte) : crcBits n (a ^^^ b) = crcBits n a ^^^ crcBits n b := by
  induction n generalizing a b with
  | zero => rfl
  | succ n ih => simp only [crcBits, crcBit_xor, ih]

/-- `responseBytes` is three bytes a word. -/
@[simp] theorem responseBytes_length (ws : List Word) : (responseBytes ws).length = 3 * ws.length := by
  induction ws with
  | nil => rfl
  | cons w ws ih => simp [responseBytes, frameBytes, ih]; omega

end Sys2Proof.Laws
end

