-- ==== Sys2Proof/Laws/Emulator.lean ====
section
/-! SUPPORT. What the emulator's shared operations do: the begin and the response of a command step, a bus read, a tick
turn. Proofs about commands cite these and unfold none of them. -/

namespace Sys2Proof.Laws

open Sys2Proof.Machine Sys2Proof.Safety

/-! ### Frames in the TxBuffer (R105) -/

/-- `putFrame` answers for each of the 8 frames, puts the frame in place and leaves every other byte. -/
theorem putFrame_spec (i : Nat) (w : Word) (tx : Memory) (hi : i < 8) :
    ∃ tx', putFrame i w tx = .next tx' ∧ FrameAt tx' i w ∧
      (∀ a, a < 3 * i ∨ 3 * i + 3 ≤ a → byteAt tx' a = byteAt tx a) ∧
      (Memory.wf tx = true → Memory.wf tx' = true) := by
  obtain ⟨m1, h1, hb1, hw1⟩ :=
    memWrite_spec tx (3 * i) [highByte w, lowByte w]
      (by simp [bufferBytes]; omega)
  obtain ⟨m2, h2, hb2, hw2⟩ :=
    memWrite_spec m1 (3 * i + 2) [crc8 w] (by simp [bufferBytes]; omega)
  refine ⟨m2, by simp [putFrame, h1, h2], ⟨?_, ?_, ?_⟩, fun a ha => ?_, fun h => hw2 (hw1 h)⟩
  · rw [hb2, hb1]; simp
  · rw [hb2, hb1]; simp
  · rw [hb2, hb1]; simp
  · rw [hb2, hb1]
    rcases ha with ha | ha
    · rw [if_neg (by omega), if_neg (by omega)]
    · have e1 : a - (3 * i + 2) = (a - (3 * i + 3)) + 1 := by omega
      have e2 : a - 3 * i = (a - (3 * i + 3)) + 3 := by omega
      rw [if_pos (by omega), if_pos (by omega), e1, e2]
      simp

/-- `putFrames` answers where the response fits, puts each word in its frame and leaves every other byte. -/
theorem putFrames_spec (ws : List Word) (i : Nat) (tx : Memory) (hi : i + ws.length ≤ 8) :
    ∃ tx', putFrames i ws tx = .next tx' ∧
      (∀ j w, ws[j]? = some w → FrameAt tx' (i + j) w) ∧
      (∀ a, a < 3 * i ∨ 3 * (i + ws.length) ≤ a → byteAt tx' a = byteAt tx a) ∧
      (Memory.wf tx = true → Memory.wf tx' = true) := by
  induction ws generalizing i tx with
  | nil => exact ⟨tx, rfl, by simp, fun _ _ => rfl, id⟩
  | cons w ws ih =>
    simp only [List.length_cons] at hi ⊢
    obtain ⟨m1, h1, hf1, hb1, hw1⟩ := putFrame_spec i w tx (by omega)
    obtain ⟨m2, h2, hf2, hb2, hw2⟩ := ih (i + 1) m1 (by omega)
    refine ⟨m2, by simp [putFrames, h1, h2], fun j v hj => ?_, fun a ha => ?_, fun h => hw2 (hw1 h)⟩
    · cases j with
      | zero =>
        simp only [List.getElem?_cons_zero, Option.some.injEq] at hj
        subst hj
        obtain ⟨p, q, r⟩ := hf1
        exact ⟨by rw [hb2 _ (by omega)]; exact p, by rw [hb2 _ (by omega)]; exact q,
          by rw [hb2 _ (by omega)]; exact r⟩
      | succ j =>
        have := hf2 j v (by simpa using hj)
        rwa [show i + 1 + j = i + (j + 1) by omega] at this
    · rw [hb2 a (by omega), hb1 a (by omega)]

/-! ### The command step (R120) -/

/-- A command begins in every state of `emu.fsm` but the unused one. -/
theorem beginCommand_next {s : State} (h : s.emu.fsm ≠ .unused) :
    beginCommand s = .next (setEmu { s.emu with fsm := .dispatching, txLen := 0 } s) := by
  simp only [beginCommand]; cases hf : s.emu.fsm <;> simp_all

theorem beginCommand_unused {s : State} (h : s.emu.fsm = .unused) : beginCommand s = .fault .unusedFsm := by
  simp [beginCommand, h]

/-- Where a command begins, `emu.fsm` was not the unused code, and the state is as R120's first lines leave it. -/
theorem beginCommand_inv {s t : State} (h : beginCommand s = .next t) :
    s.emu.fsm ≠ .unused ∧ t = setEmu { s.emu with fsm := .dispatching, txLen := 0 } s := by
  by_cases hu : s.emu.fsm = .unused
  · rw [beginCommand_unused hu] at h; cases h
  · rw [beginCommand_next hu] at h; cases h; exact ⟨hu, rfl⟩

/-- A response of at most 8 words is answered, and only the TxBuffer, its length and `emu.fsm` change. -/
theorem respond_spec (ws : List Word) (s : State) (h : ws.length ≤ 8) :
    ∃ tx, respond ws s = .next (setEmu { s.emu with
        tx := tx, txLen := BitVec.ofNat 4 ws.length, fsm := fsmAfter ws.length } s) ∧
      (∀ i w, ws[i]? = some w → FrameAt tx i w) ∧
      (∀ a, 3 * ws.length ≤ a → byteAt tx a = byteAt s.emu.tx a) ∧
      (Memory.wf s.emu.tx = true → Memory.wf tx = true) := by
  obtain ⟨tx, h1, h2, h3, h4⟩ := putFrames_spec ws 0 s.emu.tx (by omega)
  exact ⟨tx, by simp [respond, h1], by simpa using h2, fun a ha => h3 a (by right; omega), h4⟩

@[simp] theorem fsmAfter_zero : fsmAfter 0 = .idle := rfl
@[simp] theorem fsmAfter_succ (n : Nat) : fsmAfter (n + 1) = .readyToSend := rfl

/-- The length register holds the number of words of a response that fits. -/
theorem txLen_toNat {n : Nat} (h : n ≤ 8) : (BitVec.ofNat 4 n).toNat = n := by
  rw [BitVec.toNat_ofNat]; omega

/-- A frame in place passes the checksum test. -/
theorem frameIsValid_of_FrameAt {m : Memory} {i : Nat} {w : Word} (h : FrameAt m i w) : frameIsValid m i = true := by
  obtain ⟨h1, h2, h3⟩ := h
  simp [frameIsValid, h1, h2, h3]

/-- A frame that passes the checksum test is the frame of a word. -/
theorem FrameAt_of_frameIsValid {m : Memory} {i : Nat} (h : frameIsValid m i = true) : ∃ w, FrameAt m i w := by
  simp only [frameIsValid] at h
  split at h
  · rename_i a b c h1 h2 h3
    have hc : c = crc8 (wordOf a b) := by simpa using h
    exact ⟨wordOf a b, by simpa using h1, by simpa using h2, by rw [h3, hc]⟩
  · cases h

/-! ### Bus reads (R150) -/

@[simp] theorem freeBytes_length (step j n : Nat) : (freeBytes step j n).length = n := by
  induction n generalizing j with
  | zero => rfl
  | succ n ih => simp [freeBytes, ih]

/-- What a delivered read holds: `k` bytes, the response's bytes as far as it goes. -/
theorem deliver_next {e : Emu} {step k : Nat} {out : List Byte} (h : deliver e step k = .next out) :
    out.length = k ∧ ∀ j, j < k → j < 3 * e.txLen.toNat → out[j]? = byteAt e.tx j := by
  simp only [deliver] at h
  obtain ⟨data, hd, h⟩ := andThen_eq_next.mp h
  cases h
  obtain ⟨hl, hj⟩ := memRead_next hd
  refine ⟨by simp [hl]; omega, fun j hk hn => ?_⟩
  rw [List.getElem?_append_left (by omega), hj j (by omega)]
  simp

/-- Everything a bus read can do (R150): a response delivered from `ReadyToSend`, or a premature read in `Idle`. -/
theorem busRead_cases {k : Nat} {s t : State} (h : busRead k s = .next t) :
    (s.emu.fsm = .readyToSend ∧ ∃ out, deliver s.emu s.env.steps k = .next out ∧
      t = setEmu { s.emu with txLen := 0, fsm := .idle, busOut := out } s) ∨
    (s.emu.fsm = .idle ∧
      t = raiseEmu (.prematureRead k) (setEmu { s.emu with busOut := freeBytes s.env.steps 0 k } s)) := by
  simp only [busRead] at h
  split at h
  · rename_i hf
    obtain ⟨out, ho, h⟩ := andThen_eq_next.mp h
    cases h
    exact .inl ⟨hf, out, ho, rfl⟩
  · rename_i hf; cases h; exact .inr ⟨hf, rfl⟩
  · cases h
  · cases h

/-- A buffer whose frames are all valid can be read to the end of the response. -/
theorem deliver_answers {e : Emu} (step k : Nat) (hl : e.txLen.toNat ≤ 8)
    (hv : ∀ i, i < e.txLen.toNat → frameIsValid e.tx i = true) : ∃ out, deliver e step k = .next out := by
  have hs : ∀ a, a < 3 * e.txLen.toNat → (byteAt e.tx a).isSome = true := by
    intro a ha
    obtain ⟨w, h0, h1, h2⟩ := FrameAt_of_frameIsValid (hv (a / 3) (by omega))
    rcases (by omega : a = 3 * (a / 3) ∨ a = 3 * (a / 3) + 1 ∨ a = 3 * (a / 3) + 2) with h | h | h
    · rw [h, h0]; rfl
    · rw [h, h1]; rfl
    · rw [h, h2]; rfl
  obtain ⟨data, hd⟩ := memRead_answers (m := e.tx) (a := 0) (n := min k (3 * e.txLen.toNat))
    (by simp [bufferBytes]; omega)
    (fun j hj => by rw [Nat.zero_add]; exact hs j (by omega))
  exact ⟨_, by simp only [deliver, hd, andThen_next]; rfl⟩

/-! ### Tick turns (R155) -/

theorem tickTurn_pending {s : State} (h : s.emu.tickPending = true) :
    tickTurn s = setEmu { s.emu with pm25 := tickCounter s.cfg s.emu.pm25, tickPending := false } s := by
  simp [tickTurn, h]

theorem tickTurn_none {s : State} (h : s.emu.tickPending = false) : tickTurn s = s := by simp [tickTurn, h]

@[simp] theorem tickTurn_cfg (s : State) : (tickTurn s).cfg = s.cfg := by simp only [tickTurn]; split <;> rfl
@[simp] theorem tickTurn_log (s : State) : (tickTurn s).log = s.log := by simp only [tickTurn]; split <;> rfl
@[simp] theorem tickTurn_env (s : State) : (tickTurn s).env = s.env := by simp only [tickTurn]; split <;> rfl

end Sys2Proof.Laws
end

