-- ==== Sys2Proof/Laws/Logger.lean ====
section
/-! SUPPORT. What the logger's shared operations do: starting a request, the sequencer's completion rules, the record
output, validation, completion. Proofs about a turn of `LOG` cite these and unfold none of them. -/

namespace Sys2Proof.Laws

open Sys2Proof.Machine Sys2Proof.Safety

/-! ### Requests (R190) -/

/-- The logger with a request for `n` words of opcode `cmd` started in `phase`. -/
def withRequest (l : Log) (phase : LogPhase) (cmd : Word) (n : Nat) : Log :=
  { l with phase := phase, cmd := cmd, nwords := BitVec.ofNat 4 n, rd := .write,
           written := { l.written with request := true } }

theorem startRequest_next {cmd : Word} {n : Nat} {s t : State} :
    startRequest cmd n s = .next t ↔ n ≤ 8 ∧ s.log.rd = .idle ∧ t = setLog { s.log with
      cmd := cmd, nwords := BitVec.ofNat 4 n, rd := .write, written := { s.log.written with request := true } } s := by
  simp only [startRequest, maxWords]
  split
  · rename_i h; simp; omega
  · rename_i h
    split
    · rename_i hi; simp [hi, eq_comm]; omega
    · rename_i hi; simp [hi]

theorem enterPhase_next {phase : LogPhase} {cmd : Word} {n : Nat} {s t : State} :
    enterPhase phase cmd n s = .next t ↔
      n ≤ 8 ∧ s.log.rd = .idle ∧ t = setLog (withRequest s.log phase cmd n) s := by
  simp only [enterPhase, startRequest_next]; rfl

/-- The first request of a cycle: the ready check where it is respected, else the measured read (R205). -/
theorem afterClearance_next {s t : State} :
    afterClearance s = .next t ↔ s.log.rd = .idle ∧
      t = setLog (if s.cfg.respectReady then withRequest s.log .readyCheck opReadDataReady 1
                  else withRequest s.log .readMeas opReadMeasured 8) s := by
  simp only [afterClearance]
  split <;> simp [enterPhase_next]

theorem logCmd_next {l : Log} {w : Word} : logCmd l = .next w ↔ l.written.request = true ∧ w = l.cmd := by
  simp only [logCmd]
  split
  · rename_i h; simp [h, eq_comm]
  · rename_i h; simp [h]

theorem logNwords_next {l : Log} {n : Nat} :
    logNwords l = .next n ↔ l.written.request = true ∧ n = l.nwords.toNat := by
  simp only [logNwords]
  split
  · rename_i h; simp [h, eq_comm]
  · rename_i h; simp [h]

/-! ### Records (R213) -/

theorem emitRecord_next {s t : State} :
    emitRecord s = .next t ↔ s.log.written.meas = true ∧ s.log.written.raw = true ∧ s.log.written.myst = true ∧
      t = setLog { s.log with records := s.log.records ++ [⟨s.log.meas, s.log.raw, s.log.myst⟩] } s := by
  simp only [emitRecord, logMeas, logRaw, logMyst]
  cases s.log.written.meas <;> cases s.log.written.raw <;> cases s.log.written.myst <;> simp [eq_comm]

theorem measuredOf_some {ws : List Word} {m : Measured} : measuredOf ws = some m ↔ ws = measuredWords m := by
  constructor
  · intro h
    unfold measuredOf at h
    split at h
    · cases h; rfl
    · cases h
  · rintro rfl; rfl

theorem rawOf_some {ws : List Word} {m : Raw} : rawOf ws = some m ↔ ws = rawWords m := by
  constructor
  · intro h
    unfold rawOf at h
    split at h
    · cases h; rfl
    · cases h
  · rintro rfl; rfl

theorem mystOf_some {ws : List Word} {m : RawMystery} : mystOf ws = some m ↔ ws = mystWords m := by
  constructor
  · intro h
    unfold mystOf at h
    split at h
    · cases h; rfl
    · cases h
  · rintro rfl; rfl

/-! ### The sequencer's completion rules (R206 to R209) -/

theorem continueReady_cases {res : RequestResult} {s t : State} (h : continueReady res s = .next t) :
    (∃ w, res = .ok [w] ∧ w = s.cfg.safeReadyValue ∧ s.log.rd = .idle ∧
      t = setLog (withRequest s.log .readMeas opReadMeasured 8) s) ∨
    (∃ w, res = .ok [w] ∧ w ≠ s.cfg.safeReadyValue ∧ t = endCycle (raiseLog (.notReady w) s)) ∨
    ((∀ w, res ≠ .ok [w]) ∧ t = endCycle s) := by
  unfold continueReady at h
  split at h
  · rename_i w
    split at h
    · rename_i hs
      obtain ⟨-, hi, rfl⟩ := enterPhase_next.mp h
      exact .inl ⟨w, rfl, by simpa [safeToRead] using hs, hi, rfl⟩
    · rename_i hs; cases h
      exact .inr (.inl ⟨w, rfl, by simpa [safeToRead] using hs, rfl⟩)
  · rename_i hn; cases h
    exact .inr (.inr ⟨fun w hw => by cases hw; exact hn w rfl, rfl⟩)
  · cases h; exact .inr (.inr ⟨by simp, rfl⟩)

theorem continueMeas_cases {res : RequestResult} {s t : State} (h : continueMeas res s = .next t) :
    (∃ m, res = .ok (measuredWords m) ∧ s.log.rd = .idle ∧
      t = setLog (withRequest { s.log with meas := m, written := { s.log.written with meas := true } }
        .readRaw opReadRaw 4) s) ∨
    (∃ e, res = .err e ∧ t = endCycle s) := by
  unfold continueMeas at h
  split at h
  · split at h
    · rename_i m hm
      obtain ⟨-, hi, rfl⟩ := enterPhase_next.mp h
      exact .inl ⟨m, by rw [measuredOf_some.mp hm], hi, rfl⟩
    · cases h
  · rename_i e; cases h; exact .inr ⟨e, rfl, rfl⟩

theorem continueRaw_cases {res : RequestResult} {s t : State} (h : continueRaw res s = .next t) :
    (∃ r, res = .ok (rawWords r) ∧ s.log.rd = .idle ∧
      t = setLog (withRequest { s.log with raw := r, written := { s.log.written with raw := true } }
        .readMyst opReadRawMystery 4) s) ∨
    (∃ e, res = .err e ∧ t = endCycle s) := by
  unfold continueRaw at h
  split at h
  · split at h
    · rename_i m hm
      obtain ⟨-, hi, rfl⟩ := enterPhase_next.mp h
      exact .inl ⟨m, by rw [rawOf_some.mp hm], hi, rfl⟩
    · cases h
  · rename_i e; cases h; exact .inr ⟨e, rfl, rfl⟩

theorem continueMyst_cases {res : RequestResult} {s t : State} (h : continueMyst res s = .next t) :
    (∃ r, res = .ok (mystWords r) ∧ s.log.written.meas = true ∧ s.log.written.raw = true ∧
      t = setLog { s.log with
        phase := .cycleEnd, myst := r, written := { s.log.written with myst := true },
        records := s.log.records ++ [⟨s.log.meas, s.log.raw, r⟩] } s) ∨
    (∃ e, res = .err e ∧ t = endCycle s) := by
  unfold continueMyst at h
  split at h
  · split at h
    · rename_i m hm
      obtain ⟨u, hu, h⟩ := andThen_eq_next.mp h
      obtain ⟨h1, h2, -, rfl⟩ := emitRecord_next.mp hu
      cases h
      exact .inl ⟨m, by rw [mystOf_some.mp hm], h1, h2, rfl⟩
    · cases h
  · rename_i e; cases h; exact .inr ⟨e, rfl, rfl⟩

/-- A completion rule answers only in a request phase, and there it is the phase's rule (R197). -/
theorem continueCycle_cases {res : RequestResult} {s t : State} (h : continueCycle res s = .next t) :
    (s.log.phase = .readyCheck ∧ continueReady res s = .next t) ∨
    (s.log.phase = .readMeas ∧ continueMeas res s = .next t) ∨
    (s.log.phase = .readRaw ∧ continueRaw res s = .next t) ∨
    (s.log.phase = .readMyst ∧ continueMyst res s = .next t) := by
  unfold continueCycle at h
  split at h <;> simp_all

/-- A failed request ends the cycle in every request phase (R206 to R209, R211). -/
theorem continueCycle_err {e : ProtocolError} {s t : State} (h : continueCycle (.err e) s = .next t) :
    t = endCycle s := by
  rcases continueCycle_cases h with ⟨-, h⟩ | ⟨-, h⟩ | ⟨-, h⟩ | ⟨-, h⟩ <;> cases h <;> rfl

/-- A completion rule changes the logger alone. -/
theorem continueCycle_log_only {res : RequestResult} {s t : State} (h : continueCycle res s = .next t) :
    t = setLog t.log s := by
  rcases continueCycle_cases h with ⟨-, h⟩ | ⟨-, h⟩ | ⟨-, h⟩ | ⟨-, h⟩
  · rcases continueReady_cases h with ⟨w, -, -, -, rfl⟩ | ⟨w, -, -, rfl⟩ | ⟨-, rfl⟩ <;> rfl
  · rcases continueMeas_cases h with ⟨w, -, -, rfl⟩ | ⟨-, -, rfl⟩ <;> rfl
  · rcases continueRaw_cases h with ⟨w, -, -, rfl⟩ | ⟨-, -, rfl⟩ <;> rfl
  · rcases continueMyst_cases h with ⟨w, -, -, -, rfl⟩ | ⟨-, -, rfl⟩ <;> rfl

/-! ### Validation (R195) -/

/-- What the loop of `validate()` answers: the words of `todo` valid frames, or the first frame that fails. -/
theorem decodeFrames_cases {rx : Memory} {todo i : Nat} {acc : List Word} {r : Reply}
    (h : decodeFrames rx todo i acc = .next r) :
    (∃ ws, r = .ok (acc ++ ws) ∧ ws.length = todo ∧ ∀ j w, ws[j]? = some w → FrameAt rx (i + j) w) ∨
    (∃ j, j < todo ∧ r = .failed (.checksum (i + j)) ∧ frameIsValid rx (i + j) = false ∧
      ∀ k, k < j → frameIsValid rx (i + k) = true) := by
  induction todo generalizing i acc with
  | zero => simp [decodeFrames] at h; exact .inl ⟨[], by simp [h], rfl, by simp⟩
  | succ todo ih =>
    simp only [decodeFrames] at h
    obtain ⟨b0, h0, h⟩ := andThen_eq_next.mp h
    obtain ⟨b1, h1, h⟩ := andThen_eq_next.mp h
    obtain ⟨b2, h2, h⟩ := andThen_eq_next.mp h
    obtain ⟨-, h0⟩ := readByte_eq_next.mp h0
    obtain ⟨-, h1⟩ := readByte_eq_next.mp h1
    obtain ⟨-, h2⟩ := readByte_eq_next.mp h2
    cases hd : decodeFrame b0 b1 b2 with
    | ok w =>
      simp only [hd] at h
      obtain ⟨hc, rfl⟩ := decodeFrame_ok.mp hd
      have hf : FrameAt rx i (wordOf b0 b1) := ⟨by simp [h0], by simp [h1], by simp [h2, hc]⟩
      rcases ih h with ⟨ws, rfl, hl, hw⟩ | ⟨j, hj, rfl, hv, hk⟩
      · refine .inl ⟨wordOf b0 b1 :: ws, by simp, by simp [hl], fun j w hj => ?_⟩
        cases j with
        | zero => simp at hj; subst hj; exact hf
        | succ j => rw [show i + (j + 1) = i + 1 + j by omega]; exact hw j w (by simpa using hj)
      · refine .inr ⟨j + 1, by omega, by simp [show i + 1 + j = i + (j + 1) by omega], ?_, fun k hkj => ?_⟩
        · rw [show i + (j + 1) = i + 1 + j by omega]; exact hv
        · cases k with
          | zero => exact frameIsValid_of_FrameAt hf
          | succ k => rw [show i + (k + 1) = i + 1 + k by omega]; exact hk k (by omega)
    | error e =>
      simp only [hd] at h
      cases h
      refine .inr ⟨0, by omega, rfl, ?_, by omega⟩
      have hc : ¬ b2 = crc8 (wordOf b0 b1) := by
        intro hc
        rw [decodeFrame_ok.mpr ⟨hc, rfl⟩] at hd
        cases hd
      simp [frameIsValid, h0, h1, h2, hc]

/-- The loop of `validate()` answers where every byte of its frames holds a value. -/
theorem decodeFrames_answers {rx : Memory} {todo i : Nat} (acc : List Word) (hi : i + todo ≤ 8)
    (h : ∀ a, 3 * i ≤ a → a < 3 * (i + todo) → (byteAt rx a).isSome = true) :
    ∃ r, decodeFrames rx todo i acc = .next r := by
  induction todo generalizing i acc with
  | zero => exact ⟨_, rfl⟩
  | succ todo ih =>
    have hr : ∀ d, d < 3 → ∃ v, readByte rx (3 * i + d) = .next v := fun d hd => by
      obtain ⟨v, hv⟩ := Option.isSome_iff_exists.mp (h (3 * i + d) (by omega) (by omega))
      exact ⟨v, readByte_eq_next.mpr ⟨by simp [bufferBytes]; omega, hv⟩⟩
    obtain ⟨b0, h0⟩ := hr 0 (by omega)
    obtain ⟨b1, h1⟩ := hr 1 (by omega)
    obtain ⟨b2, h2⟩ := hr 2 (by omega)
    simp only [Nat.add_zero] at h0
    simp only [decodeFrames, h0, h1, h2, andThen_next]
    cases decodeFrame b0 b1 b2 with
    | ok w => exact ih _ (by omega) (fun a ha hb => h a (by omega) (by omega))
    | error e => exact ⟨_, rfl⟩

/-- Everything `validate()` can answer: a short read, the words of `N` valid frames, or the first frame that fails
(R195, R196). -/
theorem validate_cases {l : Log} {r : Reply} (h : validate l = .next r) :
    (r = .failed .short ∧ l.rxCount.toNat < 3 * l.nwords.toNat) ∨
    (3 * l.nwords.toNat ≤ l.rxCount.toNat ∧ ∃ ws, r = .ok ws ∧ ws.length = l.nwords.toNat ∧
      ∀ j w, ws[j]? = some w → FrameAt l.rx j w) ∨
    (3 * l.nwords.toNat ≤ l.rxCount.toNat ∧ ∃ j, j < l.nwords.toNat ∧ r = .failed (.checksum j) ∧
      frameIsValid l.rx j = false ∧ ∀ k, k < j → frameIsValid l.rx k = true) := by
  simp only [validate] at h
  obtain ⟨n, hn, h⟩ := andThen_eq_next.mp h
  obtain ⟨-, rfl⟩ := logNwords_next.mp hn
  split at h
  · rename_i hlt; cases h; exact .inl ⟨rfl, hlt⟩
  · rename_i hge
    obtain ⟨d, hd, h⟩ := andThen_eq_next.mp h
    rcases decodeFrames_cases hd with ⟨ws, rfl, hl, hw⟩ | ⟨j, hj, rfl, hv, hk⟩
    · simp only [List.nil_append, hl, lt_irrefl, if_false] at h
      cases h
      exact .inr (.inl ⟨by omega, ws, rfl, hl, by simpa using hw⟩)
    · cases h
      exact .inr (.inr ⟨by omega, j, hj, by simp, by simpa using hv, by simpa using hk⟩)

/-- `validate()` answers where a request is in progress and the bytes counted hold values. -/
theorem validate_answers {l : Log} (hq : l.written.request = true) (hn : l.nwords.toNat ≤ 8)
    (h : ∀ a, a < l.rxCount.toNat → (byteAt l.rx a).isSome = true) : ∃ r, validate l = .next r := by
  simp only [validate, logNwords_next.mpr ⟨hq, rfl⟩, andThen_next]
  split
  · exact ⟨_, rfl⟩
  · rename_i hge
    obtain ⟨d, hd⟩ := decodeFrames_answers (rx := l.rx) (todo := l.nwords.toNat) (i := 0) [] (by omega)
      (fun a _ ha => h a (by omega))
    rcases decodeFrames_cases hd with ⟨ws, rfl, hl, hw⟩ | ⟨j, hj, rfl, hv, hk⟩
    · exact ⟨.ok ws, by simp [hd, hl]⟩
    · exact ⟨.failed (.checksum (0 + j)), by simp [hd]⟩

/-! ### Receiving and completing (R194, R197) -/

/-- At most 24 bytes are received, from index 0 on, and counted; every other byte of the buffer stays. -/
theorem receive_spec (bytes : List Byte) (s : State) (h : bytes.length ≤ 24) :
    ∃ rx, receive bytes s = .next (setLog { s.log with rx := rx, rxCount := BitVec.ofNat 5 bytes.length } s) ∧
      (∀ a, byteAt rx a = (bytes[a]?).or (byteAt s.log.rx a)) ∧
      (Memory.wf s.log.rx = true → Memory.wf rx = true) := by
  obtain ⟨rx, h1, h2, h3⟩ := memWrite_spec s.log.rx 0 bytes (by simp [bufferBytes]; omega)
  exact ⟨rx, by simp [receive, h1], by simpa using h2, h3⟩

/-- A received answer had at most 24 bytes. -/
theorem receive_next {bytes : List Byte} {s t : State} (h : receive bytes s = .next t) : bytes.length ≤ 24 := by
  simp only [receive] at h
  obtain ⟨rx, hrx, -⟩ := andThen_eq_next.mp h
  rcases memWrite_next_iff hrx with rfl | hl
  · simp
  · simpa [bufferBytes] using hl

/-- Everything `receive` does where it answers: the bytes are received, and nothing else changes (R194). -/
theorem receive_received {bytes : List Byte} {s t : State} (h : receive bytes s = .next t) :
    Received bytes bytes.length s.log t.log ∧
      t = setLog { s.log with rx := t.log.rx, rxCount := t.log.rxCount } s := by
  have hl := receive_next h
  obtain ⟨rx, hrx, hb, -⟩ := receive_spec bytes s hl
  rw [hrx] at h
  cases h
  refine ⟨⟨?_, fun a => ?_⟩, rfl⟩
  · simp only [setLog_log, BitVec.toNat_ofNat]; omega
  · simp only [setLog_log, hb a]
    split
    · rename_i ha; rw [List.getElem?_eq_getElem ha]; rfl
    · rename_i ha; rw [List.getElem?_eq_none (by omega)]; rfl

/-- A failed request: its result, its event, and the end of the cycle (R197, R211). -/
theorem completeRequest_failed {f : Failure} {s t : State} (h : completeRequest (.failed f) s = .next t) :
    s.log.written.request = true ∧
    t = endCycle (raiseLog (failureEvent s.log.cmd s.log.rxCount f) (storeResult (.err (failureError f)) s)) := by
  simp only [completeRequest] at h
  obtain ⟨cmd, hc, h⟩ := andThen_eq_next.mp h
  obtain ⟨hq, rfl⟩ := logCmd_next.mp hc
  exact ⟨hq, continueCycle_err h⟩

theorem completeRequest_ok (ws : List Word) (s : State) :
    completeRequest (.ok ws) s = continueCycle (.ok ws) (storeResult (.ok ws) s) := rfl

/-! ### Turns of `LOG` -/

theorem whenIdle_next {o : Result State} {s t : State} :
    whenIdle o s = .next t ↔ s.log.rd = .idle ∧ o = .next t := by
  simp only [whenIdle]; split <;> simp_all

/-- Everything the monitor's step can do (R173, R174). -/
theorem arbStep_cases {v : Bool} {s t : State} (h : arbStep v s = .next t) :
    (s.log.idleCount < s.cfg.idleMin ∧ t = arbSample v s) ∨
    (s.log.idleCount = s.cfg.idleMin ∧ afterClearance s = .next t) := by
  unfold arbStep at h
  split at h
  · rename_i hlt; cases h; exact .inl ⟨hlt, rfl⟩
  · split at h
    · rename_i hc; exact .inr ⟨by simpa [cleared] using hc, h⟩
    · cases h

/-- Which step of `LOG` a turn takes: it is the one that `log.phase` and `log.rd` enable (R203 to R210). -/
theorem loggerTurn_cases {d : LogDraw} {s t : State} (h : loggerTurn d s = .next t) :
    (s.log.phase = .cycleStart ∧ s.log.rd = .idle ∧ cycleStart s = .next t) ∨
    (s.log.phase = .arbWait ∧ s.log.rd = .idle ∧ arbStep d.sense s = .next t) ∨
    (s.log.phase = .cycleEnd ∧ s.log.rd = .idle ∧ t = cycleEnd s) ∨
    ((s.log.phase = .readyCheck ∨ s.log.phase = .readMeas ∨ s.log.phase = .readRaw ∨ s.log.phase = .readMyst) ∧
      readerStep d.target s = .next t) := by
  unfold loggerTurn at h
  split at h
  · obtain ⟨hi, h⟩ := whenIdle_next.mp h; simp_all
  · obtain ⟨hi, h⟩ := whenIdle_next.mp h; simp_all
  · simp_all
  · simp_all
  · simp_all
  · simp_all
  · obtain ⟨hi, h⟩ := whenIdle_next.mp h; cases h; simp_all
  · cases h

theorem readerStep_cases {target : BusTarget} {s t : State} (h : readerStep target s = .next t) :
    (s.log.rd = .write ∧ reqWrite target s = .next t) ∨ (s.log.rd = .settle ∧ reqSettle s = .next t) ∨
    (s.log.rd = .read ∧ reqRead target s = .next t) := by
  unfold readerStep at h
  split at h <;> simp_all

end Sys2Proof.Laws
end

