-- ==== Sys2Proof/Laws/PerInstr.lean ====
section
/-! SUPPORT. Statements about every command as syntax, one lemma per constructor. -/

namespace Sys2Proof.Laws.EncodingRoundTrip

/-- A well-formed command written out as its two bytes, with any bytes after them, is read as the command (R80,
R81). -/
def Statement (i : Instr) : Prop := i.wellFormed = true → ∀ rest, decode (encode i ++ rest) = .ok i

theorem startMeasurement : Statement .startMeasurement := fun _ _ => rfl
theorem readDataReady : Statement .readDataReady := fun _ _ => rfl
theorem readMeasured : Statement .readMeasured := fun _ _ => rfl
theorem readRaw : Statement .readRaw := fun _ _ => rfl
theorem readRawMystery : Statement .readRawMystery := fun _ _ => rfl

theorem unrecognized (op : Word) : Statement (.unrecognized op) := by
  intro h rest
  have hne : opcodeIsUnnamed op = true := h
  simp [opcodeIsUnnamed, namedOpcodes] at hne
  simp [encode, encodeOpcode, decodeOpcode, hne]

end Sys2Proof.Laws.EncodingRoundTrip
end

