-- ==== Sys2Proof/Laws/Step.lean ====
section
/-! SUPPORT. One equation of `step` for each input, and the configuration it leaves. -/

namespace Sys2Proof.Laws

open Sys2Proof.Machine Sys2Proof.Safety

theorem nextInput_script {s : State} {i : Input} {is : List Input} (h : s.env.script = i :: is) : nextInput s = i := by
  simp [nextInput, h]

theorem step_eq {s : State} {i : Input} (h : nextInput s = i) : step s = runInput i (consumeInput s) := by
  simp [step, h]

theorem step_tick {s : State} (h : nextInput s = .tick) : step s = .next (tickTurn (consumeInput s)) := by
  simp [step, h, runInput]

theorem step_logger {s : State} {d : LogDraw} (h : nextInput s = .logger d) :
    step s = loggerTurn d (consumeInput s) := by simp [step, h, runInput]

theorem step_cmdWrite {s : State} {addr : BusAddr} {bytes : List Byte} (h : nextInput s = .cmdWrite addr bytes) :
    step s = if addressesBlock s.cfg addr then writeReceived bytes (consumeInput s) else .next (consumeInput s) := by
  rw [step_eq h]; rfl

theorem step_busRead {s : State} {addr : BusAddr} {k : Nat} (h : nextInput s = .busRead addr k) :
    step s = if addressesBlock s.cfg addr then busRead k (consumeInput s) else .next (consumeInput s) := by
  rw [step_eq h]; rfl

theorem step_resetEmu {s : State} (h : nextInput s = .resetEmu) :
    step s = .next (resetEmulator (consumeInput s)) := by simp [step, h, runInput]

theorem step_resetLog {s : State} (h : nextInput s = .resetLog) :
    step s = .next (resetLogger (consumeInput s)) := by simp [step, h, runInput]

/-- The parts of the state a read of the state after the input is taken sees: all but the environment's part. -/
theorem consumeInput_eq (s : State) :
    consumeInput s = { s with env := { script := s.env.script.tail, steps := s.env.steps + 1 } } := rfl

end Sys2Proof.Laws
end

