-- ==== Sys2Proof/Tests/Slice0.lean ====
section
/-! SUPPORT. Tests of single steps. Expected values are the vectors of 95_test_vectors.md (named TV-… there) and the
worked examples of the rules, under its configuration TC1. -/

namespace Sys2Proof.Tests

-- One proof after another: side by side, the kernel evaluations below take a thread each.
set_option Elab.async false

open Sys2Proof.Machine Sys2Proof.Safety

/-- The test configuration TC1 of 95_test_vectors.md. -/
def tc1 : Params where
  i2cAddr := 0x69
  pm25Baseline := 0
  pm25Step := 10
  pm25Ceiling := 1000
  pm25Init := 0x0123
  readyFlag := 0
  recMeasPm1_0 := 0x0005
  recMeasPm4_0 := 0x000C
  recMeasPm10_0 := 0x000F
  recMeasHum := 0x1194
  recMeasTemp := 0x0A8C
  recMeasVoc := 0x0064
  recMeasNox := 0x0001
  recRaw := ⟨0x7530, 0x5DC0, 0x7D00, 0x3E80⟩
  recMyst := ⟨0x1111, 0x2222, 0x3333, 0x4444⟩
  arbEnable := true
  idleMin := 3
  settleTicks := 0
  respectReady := true
  safeReadyValue := 0

/-- Reset under TC1. -/
def s0 : State := State.resetWith tc1

/-- One step of the machine on the given input. -/
def on (i : Input) (s : State) : Result State := step { s with env := { s.env with script := [i] } }

/-- A test of the next state, false where there is none. -/
def gives (o : Result State) (p : State → Bool) : Bool :=
  match o with
  | .next t => p t
  | _ => false

/-- The first `n` bytes of a buffer. -/
def firstBytes (m : Memory) (n : Nat) : List (Option Byte) := (List.range n).map (byteAt m)

/-- The emulator with a response already buffered: `READ_DATA_READY`'s (TV-CMD-2). -/
def sReady : State :=
  setEmu { s0.emu with fsm := .readyToSend, txLen := 1, tx := [(0, 0x00), (1, 0x00), (2, 0x81)] } s0

/-- The logger in a phase, with its request in a sub-state of the reader. -/
def sReq (phase : LogPhase) (cmd : Word) (n : BitVec 4) (rd : ReaderState) : State :=
  setLog { s0.log with phase := phase, cmd := cmd, nwords := n, rd := rd, written := ⟨true, false, true, true, false⟩ } s0

/-- A turn of `LOG` whose transport returns the given bytes. -/
def answered (data : List Byte) : Input := .logger { sense := true, target := .transport true data }

/-! ### Well-formedness: the check refuses each ill-formed term -/

theorem test_wellFormed_named_opcodes_refused :
    (Instr.unrecognized 0x0021).wellFormed = false ∧ (Instr.unrecognized 0x0202).wellFormed = false ∧
    (Instr.unrecognized 0x03C4).wellFormed = false ∧ (Instr.unrecognized 0x03D2).wellFormed = false ∧
    (Instr.unrecognized 0x03F5).wellFormed = false := by decide +kernel
theorem test_wellFormed_other_opcode : (Instr.unrecognized 0x03C5).wellFormed = true := by decide +kernel

/-! ### Decoding: the words of R84's table, and R138's corner cases -/

theorem test_decode_start_measurement : decode [0x00, 0x21] = .ok .startMeasurement := by decide +kernel
theorem test_decode_read_data_ready : decode [0x02, 0x02] = .ok .readDataReady := by decide +kernel
theorem test_decode_read_measured : decode [0x03, 0xC4] = .ok .readMeasured := by decide +kernel
theorem test_decode_read_raw : decode [0x03, 0xD2] = .ok .readRaw := by decide +kernel
theorem test_decode_read_raw_mystery : decode [0x03, 0xF5] = .ok .readRawMystery := by decide +kernel
theorem test_decode_one_bit_off : decode [0x03, 0xC5] = .ok (.unrecognized 0x03C5) := by decide +kernel
theorem test_decode_byte_swapped : decode [0xC4, 0x03] = .ok (.unrecognized 0xC403) := by decide +kernel
theorem test_decode_trailing_bytes : decode [0x02, 0x02, 0xFF, 0xFF] = .ok .readDataReady := by decide +kernel
theorem test_decode_one_byte : decode [0x03] = .error .tooShort := by decide +kernel
theorem test_table_word : decodeTableWord 16 0x03C4 = some .readMeasured := by decide +kernel
theorem test_table_word_short : decodeTableWord 8 0x21 = some .startMeasurement := by decide +kernel

/-! ### Checksum and codec (95_test_vectors.md 2.1, 2.2) -/

theorem test_crc_beef : crc8 0xBEEF = 0x92 := by decide +kernel
theorem test_crc_zero_checksum : crc8 0xFF00 = 0x00 := by decide +kernel
theorem test_crc_table : [0x0000, 0x0001, 0x0100, 0x0123, 0x8000, 0xFFFF].map crc8 =
    [0x81, 0xB0, 0x75, 0xA0, 0xA2, 0xAC] := by decide +kernel
theorem test_decodeFrame_swapped : decodeFrame 0xEF 0xBE 0x92 = .error .checksumError := by decide +kernel
theorem test_decodeFrame_ok : decodeFrame 0xBE 0xEF 0x92 = .ok 0xBEEF := by decide +kernel

/-! ### Commands (95_test_vectors.md 2.3) -/

/-- TV-CMD-1. -/
theorem test_start_measurement : gives (on (.cmdWrite .own [0x00, 0x21]) s0) (fun t =>
    t.emu.pm25 == 0 && t.emu.txLen == 0 && t.emu.fsm == .idle && t.emu.events == []) = true := by decide +kernel
/-- TV-CMD-2. -/
theorem test_read_data_ready : gives (on (.cmdWrite .own [0x02, 0x02]) s0) (fun t =>
    firstBytes t.emu.tx 3 == [some 0x00, some 0x00, some 0x81] && t.emu.txLen == 1 && t.emu.fsm == .readyToSend)
    = true := by decide +kernel
/-- TV-CMD-3. -/
theorem test_read_measured : gives (on (.cmdWrite .own [0x03, 0xC4]) s0) (fun t =>
    firstBytes t.emu.tx 24 == [0x00, 0x05, 0x74, 0x01, 0x23, 0xA0, 0x00, 0x0C, 0xFC, 0x00, 0x0F, 0xAF, 0x11, 0x94, 0xE6,
      0x0A, 0x8C, 0x68, 0x00, 0x64, 0xFE, 0x00, 0x01, 0xB0].map some && t.emu.txLen == 8 &&
    t.emu.fsm == .readyToSend) = true := by decide +kernel
/-- TV-CMD-4. -/
theorem test_read_raw : gives (on (.cmdWrite .own [0x03, 0xD2]) s0) (fun t =>
    firstBytes t.emu.tx 13 == [0x75, 0x30, 0x08, 0x5D, 0xC0, 0x61, 0x7D, 0x00, 0xFA, 0x3E, 0x80, 0x24].map some ++ [none]
    && t.emu.txLen == 4) = true := by decide +kernel
/-- TV-CMD-5. -/
theorem test_read_raw_mystery : gives (on (.cmdWrite .own [0x03, 0xF5]) s0) (fun t =>
    firstBytes t.emu.tx 12 == [0x11, 0x11, 0x69, 0x22, 0x22, 0x60, 0x33, 0x33, 0x88, 0x44, 0x44, 0x72].map some &&
    t.emu.tickPending && t.emu.pm25 == 0x0123) = true := by decide +kernel
/-- TV-CMD-12: the buffered response is discarded. -/
theorem test_unrecognized_discards : gives (on (.cmdWrite .own [0x12, 0x34]) sReady) (fun t =>
    t.emu.txLen == 0 && t.emu.fsm == .idle && t.emu.events == [.unrecognizedCommand 0x1234]) = true := by decide +kernel
/-- TV-CMD-9. -/
theorem test_short_write_ignored : gives (on (.cmdWrite .own [0x03]) sReady) (fun t => t.emu == sReady.emu) = true := by
  decide +kernel
/-- R68. -/
theorem test_other_address_ignored :
    gives (on (.cmdWrite (.literal 0x12) [0x12, 0x34]) sReady) (fun t => t.emu == sReady.emu) = true := by decide +kernel
/-- The reset state runs a command the host places: `READ_RAW_MYSTERY` leaves four frames. -/
theorem test_reset_runs_fetch_word :
    gives (step (State.reset.withFetchWord 16 0x03F5)) (fun t => t.emu.txLen == 4 && t.emu.tickPending) = true := by
  decide +kernel

/-! ### Bus reads (95_test_vectors.md 2.4) -/

/-- TV-FSM-1. -/
theorem test_premature_read : gives (on (.busRead .own 3) s0) (fun t =>
    t.emu.fsm == .idle && t.emu.busOut.length == 3 && t.emu.events == [.prematureRead 3]) = true := by decide +kernel
/-- TV-FSM-2 and TV-FSM-3. -/
theorem test_read_past_the_response : gives (on (.busRead .own 5) sReady) (fun t =>
    t.emu.busOut.take 3 == [0x00, 0x00, 0x81] && t.emu.busOut.length == 5 && t.emu.txLen == 0 && t.emu.fsm == .idle &&
    t.emu.events == []) = true := by decide +kernel
/-- TV-FSM-7. -/
theorem test_read_of_no_bytes : gives (on (.busRead .own 0) sReady) (fun t =>
    t.emu.busOut == [] && t.emu.txLen == 0 && t.emu.fsm == .idle) = true := by decide +kernel

/-! ### Ticks (95_test_vectors.md 2.5) -/

/-- The counter after a consumed tick under the given baseline, step and ceiling. -/
def ticked (b st c x : Word) : Word := tickCounter { tc1 with pm25Baseline := b, pm25Step := st, pm25Ceiling := c } x

/-- TV-TICK-2, TV-TICK-3, TV-TICK-4, TV-TICK-8, TV-TICK-9, TV-TICK-10. -/
theorem test_tick_vectors :
    ticked 0 10 1000 990 = 1000 ∧ ticked 0 10 1000 1000 = 0 ∧ ticked 0 10 1000 995 = 0 ∧ ticked 5 10 100 2000 = 5 ∧
    ticked 0 0x0020 0xFFFF 0xFFF0 = 0 ∧ ticked 7 10 7 7 = 7 := by decide +kernel
/-- TV-TICK-1. -/
theorem test_tick_turn : gives (on .tick (setEmu { s0.emu with pm25 := 0, tickPending := true } s0)) (fun t =>
    t.emu.pm25 == 10 && !t.emu.tickPending) = true := by decide +kernel

/-! ### Arbitration (95_test_vectors.md 2.6) -/

/-- TV-ARB-1, sample 3. -/
theorem test_sample_high : gives (on loggerOnEmulator (setLog { s0.log with phase := .arbWait, idleCount := 2 } s0))
    (fun t => t.log.idleCount == 3 && t.log.phase == .arbWait) = true := by decide +kernel
/-- TV-ARB-2, sample 3. -/
theorem test_sample_low : gives (on (.logger ⟨false, .emulator⟩)
    (setLog { s0.log with phase := .arbWait, idleCount := 2 } s0)) (fun t => t.log.idleCount == 0) = true := by decide +kernel
/-- Clearance after three high samples starts the ready check (R205). -/
theorem test_clearance : gives (on (.logger ⟨false, .emulator⟩)
    (setLog { s0.log with phase := .arbWait, idleCount := 3 } s0)) (fun t =>
    t.log.phase == .readyCheck && t.log.rd == .write && t.log.cmd == 0x0202 && t.log.nwords == 1) = true := by decide +kernel
/-- The cycle starts with the arbitration wait (R203). -/
theorem test_cycle_start : gives (on (answered []) s0) (fun t =>
    t.log.phase == .arbWait && t.log.idleCount == 0) = true := by decide +kernel

/-! ### Reader (95_test_vectors.md 2.7) and cycle (2.8) -/

/-- TV-RD-1 and R206: the word is the safe value, so the measured read starts. -/
theorem test_ready_ok : gives (on (answered [0x00, 0x00, 0x81]) (sReq .readyCheck 0x0202 1 .read)) (fun t =>
    t.log.result == .ok [0] && t.log.phase == .readMeas && t.log.cmd == 0x03C4 && t.log.nwords == 8 &&
    t.log.events == []) = true := by decide +kernel
/-- TV-RD-2. -/
theorem test_transmit_error : gives (on (.logger ⟨true, .transport false []⟩) (sReq .readyCheck 0x0202 1 .write))
    (fun t => t.log.result == .err .transmitError && t.log.events == [.transmitError 0x0202] &&
      t.log.phase == .cycleEnd && t.log.issued == [.write 0x69 [0x02, 0x02]]) = true := by decide +kernel
/-- TV-RD-3. -/
theorem test_short_read : gives (on (answered [0x00, 0x00]) (sReq .readyCheck 0x0202 1 .read)) (fun t =>
    t.log.result == .err .shortRead && t.log.events == [.shortRead 0x0202 2] && t.log.phase == .cycleEnd) = true := by
  decide +kernel
/-- TV-RD-7: byte 11 is AE, frame 3 fails. -/
theorem test_checksum_error : gives (on (answered [0x00, 0x05, 0x74, 0x01, 0x23, 0xA0, 0x00, 0x0C, 0xFC, 0x00, 0x0F, 0xAE,
      0x11, 0x94, 0xE6, 0x0A, 0x8C, 0x68, 0x00, 0x64, 0xFE, 0x00, 0x01, 0xB0]) (sReq .readMeas 0x03C4 8 .read))
    (fun t => t.log.result == .err .checksumError && t.log.events == [.checksumError 0x03C4 3]) = true := by decide +kernel
/-- TV-CYC-2. -/
theorem test_not_ready : gives (on (answered [0x00, 0x01, 0xB0]) (sReq .readyCheck 0x0202 1 .read)) (fun t =>
    t.log.events == [.notReady 1] && t.log.phase == .cycleEnd && t.log.result == .ok [1]) = true := by decide +kernel
/-- TV-CYC-1, the last request: the record is appended. -/
theorem test_record_emitted : gives (on (answered [0x11, 0x11, 0x69, 0x22, 0x22, 0x60, 0x33, 0x33, 0x88, 0x44, 0x44, 0x72])
      (setLog { (sReq .readMyst 0x03F5 4 .read).log with written := ⟨true, true, true, true, false⟩ } s0)) (fun t =>
    t.log.records.length == 1 && t.log.myst == ⟨0x1111, 0x2222, 0x3333, 0x4444⟩ && t.log.phase == .cycleEnd)
    = true := by decide +kernel
/-- R216: the command write reaches the emulator in the same step. -/
theorem test_write_to_emulator : gives (on loggerOnEmulator (sReq .readyCheck 0x0202 1 .write)) (fun t =>
    t.log.rd == .settle && t.emu.txLen == 1) = true := by decide +kernel
/-- R199: a request for no words completes without a read; in no phase does the sequencer make one. -/
theorem test_more_than_eight_words_refused :
    (match startRequest 0x0202 9 s0 with | .refused .requestTooLong => true | _ => false) = true := by decide +kernel

/-! ### Witnesses: concrete states and operands that meet the hypotheses of each obligation that has any -/

/-- What a passed `gives` says. -/
theorem of_gives {o : Result State} {p : State → Bool} (h : gives o p = true) : ∃ t, o = .next t ∧ p t = true := by
  unfold gives at h
  split at h
  · exact ⟨_, rfl, h⟩
  · cases h

/-- A state with the given inputs next. -/
def next (is : List Input) (s : State) : State := { s with env := { s.env with script := is } }

/-- The emulator with eight frames buffered: `READ_MEASURED`'s response (TV-CMD-3). -/
def sFull : State :=
  setEmu { s0.emu with
    fsm := .readyToSend
    txLen := 8
    tx := [(0, 0x00), (1, 0x05), (2, 0x74), (3, 0x01), (4, 0x23), (5, 0xA0), (6, 0x00), (7, 0x0C), (8, 0xFC), (9, 0x00),
      (10, 0x0F), (11, 0xAF), (12, 0x11), (13, 0x94), (14, 0xE6), (15, 0x0A), (16, 0x8C), (17, 0x68), (18, 0x00),
      (19, 0x64), (20, 0xFE), (21, 0x00), (22, 0x01), (23, 0xB0)] } s0

/-- A tick is pending. -/
def sTick : State := setEmu { s0.emu with tickPending := true } s0

/-- The logger in the arbitration wait, with a window of `n`. -/
def sWait (n : Nat) : State := setLog { s0.log with phase := .arbWait, idleCount := n } s0

/-- A turn of `LOG` whose write the transport refuses. -/
def unanswered : Input := .logger ⟨true, .transport false []⟩

/-- A state whose next input, a turn of `LOG`, completes a raw-mystery read. -/
def sLast : State := next [answered (responseBytes (mystWords tc1.recMyst))]
  (setLog { (sReq .readMyst 0x03F5 4 .read).log with written := ⟨true, true, true, true, false⟩ } s0)

/-- An unnamed opcode. -/
theorem witness_OpcodeTableRows : (0x0000 : Word) ≠ 0x0021 ∧ (0x0000 : Word) ≠ 0x0202 ∧ (0x0000 : Word) ≠ 0x03C4 ∧
    (0x0000 : Word) ≠ 0x03D2 ∧ (0x0000 : Word) ≠ 0x03F5 := by decide +kernel
theorem witness_StepRunsDecodedCommand :
    nextInput (next [.cmdWrite .own [0x03, 0xC4]] s0) = .cmdWrite .own [0x03, 0xC4] ∧
    addressesBlock s0.cfg .own = true ∧ decode [0x03, 0xC4] = .ok .readMeasured := by decide +kernel
theorem witness_WriteLengths :
    addressesBlock s0.cfg (.literal 0x69) = true ∧
    (∀ bytes ∈ [[], [0x03], [0x03, 0xC4], [0x03, 0xC4, 0x00]],
      nextInput (next [.cmdWrite (.literal 0x69) bytes] s0) = .cmdWrite (.literal 0x69) bytes) := by decide +kernel
theorem witness_OtherAddressesIgnored :
    (0x68 : BusAddress) ≠ s0.cfg.i2cAddr ∧
    nextInput (next [.cmdWrite (.literal 0x68) [0x03, 0xC4]] s0) = .cmdWrite (.literal 0x68) [0x03, 0xC4] ∧
    nextInput (next [.busRead (.literal 0x68) 3] s0) = .busRead (.literal 0x68) 3 := by decide +kernel
/-- The hypothesis of the six `…Result` statements, of `DispatchWordCounts` and of `LastCommandWins`: in both states of a
step boundary, and in `Dispatching`. -/
theorem witness_commands_run :
    s0.emu.fsm ≠ .unused ∧ sFull.emu.fsm ≠ .unused ∧ EmuFsm.dispatching ≠ .unused ∧
    opcodeIsUnnamed 0x0000 = true ∧ opcodeIsUnnamed 0x0021 = false := by decide +kernel
theorem witness_UnusedCodesFault :
    (setEmu { s0.emu with fsm := .unused } s0).emu.fsm = .unused ∧
    (setLog { s0.log with phase := .unused } s0).log.phase = .unused := by decide +kernel
theorem witness_BusReadDelivers :
    EmuInv sReady.emu ∧ sReady.emu.fsm = .readyToSend ∧ EmuInv sFull.emu ∧ sFull.emu.fsm = .readyToSend := by
  decide +kernel
theorem witness_PrematureReadReported : s0.emu.fsm = .idle := by decide +kernel
theorem witness_ResponseReadBack :
    (∃ t, exec .readMeasured s0 = .next t) ∧ commandWords s0.cfg s0.emu.pm25 .readMeasured ≠ [] :=
  ⟨(of_gives (p := fun _ => true) (by decide +kernel)).imp fun _ h => h.1, by decide +kernel⟩
theorem witness_FsmTransitions :
    EmuInv s0.emu ∧ EmuInv sReady.emu ∧ addressesBlock s0.cfg .own = true ∧
    nextInput (next [.cmdWrite .own [0x02, 0x02]] sReady) = .cmdWrite .own [0x02, 0x02] ∧
    nextInput (next [.cmdWrite .own [0x02]] sReady) = .cmdWrite .own [0x02] ∧
    nextInput (next [.busRead .own 3] sReady) = .busRead .own 3 ∧ nextInput (next [.tick] sReady) = .tick := by
  decide +kernel
theorem witness_TickConsumption :
    nextInput (next [.tick] sTick) = .tick ∧ (next [.tick] sTick).emu.tickPending = true := by decide +kernel
theorem witness_TickTurnWithoutTick :
    nextInput (next [.tick] s0) = .tick ∧ (next [.tick] s0).emu.tickPending = false := by decide +kernel
/-- A run of one consumed tick, under a step of 10 and under a step of 0. -/
theorem witness_TickCounterLaw : ∀ st ∈ [(10 : Word), 0], ∃ s t, BoundaryInv s ∧ s.cfg.pm25Step = st ∧
    s.emu.pm25 = s.cfg.pm25Baseline ∧ CounterRun 1 s t := by
  intro st hst
  let s : State := next [.tick] (setEmu { s0.emu with pm25 := 0, tickPending := true } (State.resetWith
    { tc1 with pm25Step := st }))
  refine ⟨s, tickTurn (consumeInput s), ?_, rfl, rfl, .tick (.start s) rfl rfl⟩
  simp only [List.mem_cons, List.not_mem_nil, or_false] at hst
  rcases hst with rfl | rfl <;> decide +kernel
theorem witness_TickSlotOverrun : ∃ t v, BoundaryInv s0 ∧ exec .readRawMystery s0 = .next t ∧ CounterRun 0 t t ∧
    exec .readRawMystery t = .next v := by
  obtain ⟨t, ht, h⟩ := of_gives (o := exec .readRawMystery s0) (p := fun t => gives (exec .readRawMystery t) fun _ => true)
    (by decide +kernel)
  obtain ⟨v, hv, -⟩ := of_gives h
  exact ⟨t, v, by decide +kernel, ht, .start t, hv⟩
theorem witness_StartMeasurementWithTickPending : ∃ t v, BoundaryInv (next [.tick] sTick) ∧
    exec .startMeasurement (next [.tick] sTick) = .next t ∧ sTick.emu.tickPending = true ∧ CounterRun 0 t t ∧
    consumesTick t = true ∧ step t = .next v := by
  obtain ⟨t, ht, h⟩ := of_gives (o := exec .startMeasurement (next [.tick] sTick))
    (p := fun t => consumesTick t && gives (step t) fun _ => true) (by decide +kernel)
  simp only [Bool.and_eq_true] at h
  obtain ⟨v, hv, -⟩ := of_gives h.2
  exact ⟨t, v, by decide +kernel, ht, rfl, .start t, h.1, hv⟩
/-- Both in `ReadyToSend` and in `Idle`, with a tick pending. -/
theorem witness_ResponseSnapshot :
    (∃ t, busRead 24 (setEmu { sFull.emu with tickPending := true } s0) = .next t) ∧ ∃ t, busRead 0 sTick = .next t :=
  ⟨(of_gives (p := fun _ => true) (by decide +kernel)).imp fun _ h => h.1, ⟨_, rfl⟩⟩
/-- The counter at the ceiling, and one below it. -/
theorem witness_CounterStaysWithinCeiling : ∀ x ∈ [(1000 : Word), 999], ∃ s t, s.emu.pm25 = x ∧
    s.cfg.admissible = true ∧ s.emu.pm25.toNat ≤ s.cfg.pm25Ceiling.toNat ∧ nextInput s ≠ .resetEmu ∧ step s = .next t := by
  intro x hx
  refine ⟨next [.tick] (setEmu { sTick.emu with pm25 := x } s0), _, rfl, rfl, ?_, ?_, rfl⟩
  · simp only [List.mem_cons, List.not_mem_nil, or_false] at hx
    rcases hx with rfl | rfl <;> decide +kernel
  · simp [nextInput, next]
/-- The run in which `EMU.TICK` has every turn, from a state with a tick pending. -/
def tickRun : Nat → State
  | 0 => sTick
  | n + 1 => { tickTurn sTick with env := { script := [], steps := n + 1 } }
theorem witness_FairTickIsConsumed : InfiniteRun (fun _ => .tick) tickRun ∧ WeaklyFairTick (fun _ => .tick) tickRun ∧
    (tickRun 0).emu.tickPending = true := by
  refine ⟨fun n => ⟨[.tick], rfl, ?_⟩, fun n _ => ⟨n, Nat.le_refl n, rfl⟩, rfl⟩
  cases n <;> rfl
theorem witness_FrameRoundTrip : decodeFrame 0xFF 0x00 0x00 = .ok 0xFF00 := by decide +kernel
/-- The first and the last bit of a frame, which are also the least and the greatest index of `EmulatorReset`'s and
`LoggerReset`'s buffer bytes. -/
theorem witness_SingleBitFlipDetected : ∀ i ∈ [0, 23], i < 24 := by decide +kernel
theorem witness_CycleStartsWithWait : ∃ d, nextInput (next [unanswered] s0) = .logger d ∧ s0.log.phase = .cycleStart ∧
    s0.log.rd = .idle ∧ s0.cfg.arbEnable = true := ⟨⟨true, .transport false []⟩, by decide +kernel⟩
/-- The empty window, and the window one short of full. -/
theorem witness_SampleUpdatesWindow : ∀ n ∈ [0, 2], ∃ d, nextInput (next [unanswered] (sWait n)) = .logger d ∧
    (sWait n).log.phase = .arbWait ∧ (sWait n).log.rd = .idle ∧ (sWait n).log.idleCount < (sWait n).cfg.idleMin := by
  intro n hn
  refine ⟨⟨true, .transport false []⟩, rfl, rfl, rfl, ?_⟩
  simp only [List.mem_cons, List.not_mem_nil, or_false] at hn
  rcases hn with rfl | rfl <;> decide +kernel
theorem witness_ClearanceStartsFirstRequest :
    (∃ d, nextInput (next [unanswered] (sWait 3)) = .logger d ∧ (sWait 3).log.rd = .idle ∧
      (sWait 3).log.phase = .arbWait ∧ (sWait 3).log.idleCount = (sWait 3).cfg.idleMin) ∧
    (∃ s d, nextInput s = .logger d ∧ s.log.rd = .idle ∧ s.log.phase = .cycleStart ∧ s.cfg.arbEnable = false) :=
  ⟨⟨⟨true, .transport false []⟩, by decide +kernel⟩,
    ⟨next [unanswered] (State.resetWith { tc1 with arbEnable := false }), ⟨true, .transport false []⟩, by decide +kernel⟩⟩
theorem witness_WaitHasNoBound :
    (next (sampleInputs [true, true, false, true]) (sWait 0)).env.script =
      sampleInputs [true, true, false, true] ++ [] ∧
    (sWait 0).log.phase = .arbWait ∧ (sWait 0).log.rd = .idle ∧ (sWait 0).log.idleCount = 0 ∧
    ∀ k, k < 4 → trailingHighs ([true, true, false, true].take k) < (sWait 0).cfg.idleMin := by decide +kernel
theorem witness_RequestStart : s0.log.rd = .idle := by decide +kernel
theorem witness_CommandWriteCompletes : ∃ data,
    nextInput (next [answered data] (sReq .readMeas 0x03C4 8 .write)) = .logger ⟨true, .transport true data⟩ ∧
    InRequest (sReq .readMeas 0x03C4 8 .write).log .write := ⟨[], by decide +kernel⟩
theorem witness_TransmitErrorEndsCycle :
    nextInput (next [unanswered] (sReq .readMeas 0x03C4 8 .write)) = .logger ⟨true, .transport false []⟩ ∧
    InRequest (sReq .readMeas 0x03C4 8 .write).log .write := by decide +kernel
/-- A request of one word, and a request of no words. -/
theorem witness_SettleThenRead : ∀ n ∈ [(0 : BitVec 4), 1], ∃ d,
    nextInput (next [unanswered] (sReq .readyCheck 0x0202 n .settle)) = .logger d ∧
    InRequest (sReq .readyCheck 0x0202 n .settle).log .settle ∧
    (sReq .readyCheck 0x0202 n .settle).log.nwords = n ∧ (sReq .readyCheck 0x0202 n .settle).log.phase = .readyCheck :=
  fun _ _ => ⟨⟨true, .transport false []⟩, rfl, ⟨.inl rfl, rfl, rfl⟩, rfl, rfl⟩
/-- Eight words asked for, 23 bytes returned, and none. -/
theorem witness_ShortReadEndsCycle : ∀ data ∈ [List.replicate 23 (0x00 : Byte), []],
    nextInput (next [answered data] (sReq .readMeas 0x03C4 8 .read)) = .logger ⟨true, .transport true data⟩ ∧
    InRequest (sReq .readMeas 0x03C4 8 .read).log .read ∧ (sReq .readMeas 0x03C4 8 .read).log.nwords.toNat ≤ 8 ∧
    data.length < 3 * (sReq .readMeas 0x03C4 8 .read).log.nwords.toNat := by decide +kernel
/-- One word asked for, its frame corrupt (TV-RD-1's bytes with another checksum). -/
theorem witness_FirstBadFrameReported :
    nextInput (next [answered [0x00, 0x00, 0x80]] (sReq .readyCheck 0x0202 1 .read)) =
      .logger ⟨true, .transport true [0x00, 0x00, 0x80]⟩ ∧
    InRequest (sReq .readyCheck 0x0202 1 .read).log .read ∧ (sReq .readyCheck 0x0202 1 .read).log.nwords.toNat = 1 ∧
    (∀ k, k < 0 → ∃ w, FrameOf [0x00, 0x00, 0x80] k (.ok w)) ∧
    FrameOf [0x00, 0x00, 0x80] 0 (.error .checksumError) :=
  ⟨by decide +kernel, by decide +kernel, by decide +kernel, by omega, 0x00, 0x00, 0x80, rfl, rfl, rfl, by decide +kernel⟩
/-- The safe value and another, with a byte too many. -/
theorem witness_ReadyCheckDecides : ∀ w ∈ [(0 : Word), 1],
    nextInput (next [answered (frameBytes w ++ [0x00])] (sReq .readyCheck 0x0202 1 .read)) =
      .logger ⟨true, .transport true (frameBytes w ++ [0x00])⟩ ∧
    (sReq .readyCheck 0x0202 1 .read).log.phase = .readyCheck ∧ (sReq .readyCheck 0x0202 1 .read).log.rd = .read ∧
    (sReq .readyCheck 0x0202 1 .read).log.written.request = true ∧
    (sReq .readyCheck 0x0202 1 .read).log.nwords = 1 := fun _ _ => ⟨rfl, rfl, rfl, rfl, rfl⟩
theorem witness_ReadsAdvanceTheCycle :
    (∃ s m, nextInput s = .logger ⟨true, .transport true (responseBytes (measuredWords m) ++ [])⟩ ∧
      s.log.phase = .readMeas ∧ RequestIs s.log 0x03C4 8 ∧ s.log.rd = .read) ∧
    (∃ s r, nextInput s = .logger ⟨true, .transport true (responseBytes (rawWords r) ++ [])⟩ ∧
      s.log.phase = .readRaw ∧ RequestIs s.log 0x03D2 4 ∧ s.log.rd = .read) :=
  ⟨⟨next [answered (responseBytes (measuredWords ⟨1, 2, 3, 4, 5, 6, 7, 8⟩) ++ [])] (sReq .readMeas 0x03C4 8 .read),
      ⟨1, 2, 3, 4, 5, 6, 7, 8⟩, by decide +kernel⟩,
    ⟨next [answered (responseBytes (rawWords ⟨1, 2, 3, 4⟩) ++ [])] (sReq .readRaw 0x03D2 4 .read), ⟨1, 2, 3, 4⟩,
      by decide +kernel⟩⟩
theorem witness_LastReadEmitsRecord :
    nextInput sLast = .logger ⟨true, .transport true (responseBytes (mystWords tc1.recMyst) ++ [])⟩ ∧
    sLast.log.phase = .readMyst ∧ RequestIs sLast.log 0x03F5 4 ∧ sLast.log.rd = .read ∧
    sLast.log.written.meas = true ∧ sLast.log.written.raw = true := by decide +kernel
theorem witness_CycleEndRestarts : ∃ s d, nextInput s = .logger d ∧ s.log.phase = .cycleEnd ∧ s.log.rd = .idle :=
  ⟨next [unanswered] (setLog { s0.log with phase := .cycleEnd } s0), ⟨true, .transport false []⟩, by decide +kernel⟩
theorem witness_IncompleteMessageUnreachable : ∃ s t, step s = .next t ∧ .incompleteMessage 0x0202 0 ∈ t.log.events :=
  ⟨next [.tick] (setLog { s0.log with events := [.incompleteMessage 0x0202 0] } s0), _, rfl, by decide +kernel⟩
theorem witness_UnitsResetIndependently :
    nextInput (next [.resetEmu] sFull) = .resetEmu ∧ nextInput (next [.resetLog] sFull) = .resetLog := by decide +kernel
theorem witness_ResetMeetsInvariant : tc1.admissible = true ∧
    { tc1 with pm25Baseline := 1000 }.admissible = true := by decide +kernel
theorem witness_inv_response : BoundaryInv sFull := by decide +kernel
theorem witness_inv_request : BoundaryInv (sReq .readMeas 0x03C4 8 .read) := by decide +kernel
/-- States of the invariant: right after reset, with a response buffered, and with a request in progress. -/
theorem witness_EveryStepAnswersAndKeepsInvariant : BoundaryInv s0 ∧ BoundaryInv sFull ∧
    BoundaryInv (sReq .readMeas 0x03C4 8 .read) := ⟨by decide +kernel, witness_inv_response, witness_inv_request⟩
theorem witness_ParametersNeverChange : ∃ t, step (next [unanswered] s0) = .next t := ⟨_, rfl⟩
/-- A step that is none of the logger's, a turn that issues nothing with an emulator target, a turn that issues to the
transport, and the logger's reset. -/
theorem witness_UnitsShareNoState :
    (∃ s t, step s = .next t ∧ (∀ d, nextInput s ≠ .logger d) ∧ nextInput s ≠ .resetLog) ∧
    (∃ t, step (next [loggerOnEmulator] s0) = .next t ∧
      nextInput (next [loggerOnEmulator] s0) = .logger ⟨true, .emulator⟩ ∧ t.log.issued = s0.log.issued) ∧
    (∃ t, step (next [unanswered] (sReq .readMeas 0x03C4 8 .write)) = .next t ∧
      t.log.issued ≠ (sReq .readMeas 0x03C4 8 .write).log.issued) ∧
    ∃ s t, step s = .next t ∧ nextInput s = .resetLog := by
  refine ⟨⟨next [.tick] sTick, _, rfl, by simp [nextInput, next], by simp [nextInput, next]⟩, ⟨_, rfl, rfl, rfl⟩, ?_,
    ⟨next [.resetLog] sFull, _, rfl, rfl⟩⟩
  obtain ⟨t, ht, h⟩ := of_gives (o := step (next [unanswered] (sReq .readMeas 0x03C4 8 .write)))
    (p := fun t => t.log.issued != (sReq .readMeas 0x03C4 8 .write).log.issued) (by decide +kernel)
  exact ⟨t, ht, by simpa using h⟩
theorem witness_EmulatorIgnoresLogger : ∃ s t, (∀ d, nextInput s ≠ .logger d) ∧ step s = .next t :=
  ⟨next [.tick] sTick, _, by simp [nextInput, next], rfl⟩
theorem witness_AtMostOneEventPerStep : ∃ s t, step s = .next t ∧ nextInput s ≠ .resetEmu ∧ nextInput s ≠ .resetLog :=
  ⟨next [.tick] sTick, _, rfl, by simp [nextInput, next], by simp [nextInput, next]⟩
theorem witness_FirstFailureEndsCycle : ∃ s t d, nextInput s = .logger d ∧ step s = .next t ∧
    t.log.events ≠ s.log.events := by
  obtain ⟨t, ht, h⟩ := of_gives (o := step (next [unanswered] (sReq .readMeas 0x03C4 8 .write)))
    (p := fun t => t.log.events != (next [unanswered] (sReq .readMeas 0x03C4 8 .write)).log.events) (by decide +kernel)
  exact ⟨_, t, _, rfl, ht, by simpa using h⟩
/-- A step that appends a record, one that enters `READ_RAW` and changes `log.meas`, and one that enters `READ_MYST` and
changes `log.raw`. -/
theorem witness_RecordsOnlyFromCompleteCycles :
    (∃ t, step sLast = .next t ∧ nextInput sLast ≠ .resetLog ∧ t.log.records ≠ sLast.log.records) ∧
    (∃ s t, step s = .next t ∧ nextInput s ≠ .resetLog ∧ t.log.phase = .readRaw ∧ s.log.phase ≠ .readRaw ∧
      t.log.meas ≠ s.log.meas) ∧
    (∃ s t, step s = .next t ∧ nextInput s ≠ .resetLog ∧ t.log.phase = .readMyst ∧ s.log.phase ≠ .readMyst ∧
      t.log.raw ≠ s.log.raw) := by
  refine ⟨?_, ?_, ?_⟩
  · obtain ⟨t, ht, h⟩ := of_gives (o := step sLast) (p := fun t => t.log.records != sLast.log.records)
      (by decide +kernel)
    exact ⟨t, ht, by decide +kernel, by simpa using h⟩
  · let s := next [answered (responseBytes (measuredWords ⟨1, 2, 3, 4, 5, 6, 7, 8⟩))] (sReq .readMeas 0x03C4 8 .read)
    obtain ⟨t, ht, h⟩ := of_gives (o := step s) (p := fun t => t.log.phase == .readRaw && t.log.meas != s.log.meas)
      (by decide +kernel)
    simp only [Bool.and_eq_true, beq_iff_eq, bne_iff_ne] at h
    exact ⟨s, t, ht, by decide +kernel, h.1, by decide +kernel, h.2⟩
  · let s := next [answered (responseBytes (rawWords ⟨1, 2, 3, 4⟩))] (sReq .readRaw 0x03D2 4 .read)
    obtain ⟨t, ht, h⟩ := of_gives (o := step s) (p := fun t => t.log.phase == .readMyst && t.log.raw != s.log.raw)
      (by decide +kernel)
    simp only [Bool.and_eq_true, beq_iff_eq, bne_iff_ne] at h
    exact ⟨s, t, ht, by decide +kernel, h.1, by decide +kernel, h.2⟩
theorem witness_LoggerSendsOnlyItsOpcodes : ∃ t, BoundaryInv sLast ∧ step sLast = .next t ∧
    nextInput sLast ≠ .resetLog ∧ t.log.issued ≠ sLast.log.issued := by
  obtain ⟨t, ht, h⟩ := of_gives (o := step sLast) (p := fun t => t.log.issued != sLast.log.issued) (by decide +kernel)
  exact ⟨t, by decide +kernel, ht, by decide +kernel, by simpa using h⟩
/-- A command write, and a read that finds eight frames. -/
theorem witness_CompositionIsOneStep :
    (∃ s, BoundaryInv s ∧ nextInput s = .logger ⟨true, .emulator⟩ ∧ InRequest s.log .write) ∧
    ∃ s, BoundaryInv s ∧ nextInput s = .logger ⟨true, .emulator⟩ ∧ InRequest s.log .read ∧ s.emu.txLen = 8 :=
  ⟨⟨next [loggerOnEmulator] (sReq .readMeas 0x03C4 8 .write), by decide +kernel, rfl, ⟨.inr (.inl rfl), rfl, rfl⟩⟩,
    ⟨next [loggerOnEmulator] (setEmu sFull.emu (sReq .readMeas 0x03C4 8 .read)),
      ⟨rfl, witness_inv_response.2.1, witness_inv_request.2.2⟩, rfl, ⟨.inr (.inl rfl), rfl, rfl⟩, rfl⟩⟩
/-- The cycle without the ready check, and with it. -/
theorem witness_CycleAgainstEmulatorYieldsItsRecord : ∀ ready ∈ [false, true], ∃ s rest n, BoundaryInv s ∧
    s.log.phase = .cycleStart ∧ s.cfg.arbEnable = false ∧
    (s.cfg.respectReady = false ∧ n = 11 ∨
      s.cfg.respectReady = true ∧ s.cfg.safeReadyValue = s.cfg.readyFlag ∧ n = 14) ∧
    s.env.script = List.replicate n loggerOnEmulator ++ rest ∧ s.cfg.respectReady = ready := by
  intro ready _
  cases ready
  · exact ⟨next (List.replicate 11 loggerOnEmulator)
      (State.resetWith { tc1 with arbEnable := false, respectReady := false }), [], 11, by decide +kernel, rfl, rfl,
      .inl ⟨rfl, rfl⟩, rfl, rfl⟩
  · exact ⟨next (List.replicate 14 loggerOnEmulator) (State.resetWith { tc1 with arbEnable := false }), [], 14,
      by decide +kernel, rfl, rfl, .inr ⟨rfl, rfl, rfl⟩, rfl, rfl⟩

end Sys2Proof.Tests
end

