-- ==== Sys2Proof/Proofs/Frames.lean ====
section
/-! SUPPORT. What each operation of the machine leaves unchanged. `t = setEmu t.emu s` says that `t` differs from `s` in
the emulator alone, `t = setLog t.log s` that it differs in the logger alone; every other part of the state follows from
either by projection. -/

namespace Sys2Proof.Laws

open Sys2Proof.Machine

variable {s t u : State}

/-! ### Emulator frames (R120, R150, R155) -/

/-- Changes of the emulator alone compose. -/
theorem setEmu_trans (hut : t = setEmu t.emu u) (hsu : u = setEmu u.emu s) : t = setEmu t.emu s := by
  have hu := congrArg (setEmu t.emu) hsu
  exact hut.trans (hu.trans (setEmu_setEmu s t.emu u.emu))

theorem beginCommand_emu_only (h : beginCommand s = .next t) : t = setEmu t.emu s := by
  obtain ⟨-, rfl⟩ := beginCommand_inv h
  rfl

theorem respond_emu_only {ws : List Word} (h : respond ws s = .next t) : t = setEmu t.emu s := by
  obtain ⟨tx, -, h⟩ := andThen_eq_next.mp h
  cases h
  rfl

/-- A command's step is R120's first lines and then its own part: it changes the emulator alone where its part does. -/
theorem afterBegin_emu_only {f : State → Result State} (hf : ∀ u, f u = .next t → t = setEmu t.emu u)
    (h : andThen (beginCommand s) f = .next t) : t = setEmu t.emu s := by
  obtain ⟨u, hu, h⟩ := andThen_eq_next.mp h
  exact setEmu_trans (hf u h) (beginCommand_emu_only hu)

/-- A command changes the emulator alone. Before its response, `START_MEASUREMENT`, `READ_RAW_MYSTERY` and an
unrecognized opcode change the emulator once more. -/
theorem exec_emu_only {i : Instr} (h : exec i s = .next t) : t = setEmu t.emu s := by
  cases i with
  | startMeasurement => exact afterBegin_emu_only (fun _ hu => setEmu_trans (respond_emu_only hu) rfl) h
  | readDataReady => exact afterBegin_emu_only (fun _ => respond_emu_only) h
  | readMeasured => exact afterBegin_emu_only (fun _ => respond_emu_only) h
  | readRaw => exact afterBegin_emu_only (fun _ => respond_emu_only) h
  | readRawMystery => exact afterBegin_emu_only (fun _ hu => setEmu_trans (respond_emu_only hu) rfl) h
  | unrecognized op => exact afterBegin_emu_only (fun _ hu => setEmu_trans (respond_emu_only hu) rfl) h

theorem writeReceived_emu_only {bytes : List Byte} (h : writeReceived bytes s = .next t) : t = setEmu t.emu s := by
  unfold writeReceived at h
  split at h
  · exact exec_emu_only h
  · cases h; rfl

theorem busRead_emu_only {k : Nat} (h : busRead k s = .next t) : t = setEmu t.emu s := by
  rcases busRead_cases h with ⟨-, out, -, rfl⟩ | ⟨-, rfl⟩ <;> rfl

/-! ### Logger frames (R191 to R210) -/

/-- Changes of the logger alone compose. -/
theorem setLog_trans (hut : t = setLog t.log u) (hsu : u = setLog u.log s) : t = setLog t.log s := by
  have hu := congrArg (setLog t.log) hsu
  exact hut.trans (hu.trans (setLog_setLog s t.log u.log))

/-- A completed request changes the logger alone. -/
theorem completeRequest_log_only {r : Reply} (h : completeRequest r s = .next t) : t = setLog t.log s := by
  cases r with
  | ok ws =>
    rw [completeRequest_ok] at h
    exact setLog_trans (continueCycle_log_only h) rfl
  | failed f => obtain ⟨-, rfl⟩ := completeRequest_failed h; rfl

theorem reqSettle_log_only (h : reqSettle s = .next t) : t = setLog t.log s := by
  obtain ⟨n, -, h⟩ := andThen_eq_next.mp h
  dsimp only at h
  split at h
  · exact completeRequest_log_only h
  · cases h; rfl

theorem receive_log_only {bytes : List Byte} (h : receive bytes s = .next t) : t = setLog t.log s := by
  obtain ⟨rx, -, h⟩ := andThen_eq_next.mp h
  cases h
  rfl

theorem afterClearance_log_only (h : afterClearance s = .next t) : t = setLog t.log s := by
  obtain ⟨-, rfl⟩ := afterClearance_next.mp h
  rfl

theorem cycleStart_log_only (h : cycleStart s = .next t) : t = setLog t.log s := by
  unfold cycleStart at h
  split at h
  · cases h; rfl
  · exact afterClearance_log_only h

theorem arbStep_log_only {v : Bool} (h : arbStep v s = .next t) : t = setLog t.log s := by
  rcases arbStep_cases h with ⟨-, rfl⟩ | ⟨-, h⟩
  · rfl
  · exact afterClearance_log_only h

/-- The answer to a read comes with the state unchanged from the transport, and with the emulator's own change from an
emulator target (R200, R216). -/
theorem readAnswer_emu_only {target : BusTarget} {k : Nat} {a : List Byte × State}
    (h : readAnswer target k s = .next a) : a.2 = setEmu a.2.emu s := by
  cases target with
  | transport ok data => cases h; rfl
  | emulator =>
    obtain ⟨u, hu, h⟩ := andThen_eq_next.mp h
    cases h
    exact busRead_emu_only hu

end Sys2Proof.Laws
end

