-- ==== Sys2Proof/Proofs/Parameters.lean ====
section
/-! The parameters over a step (R8). A turn of the logger that issues a transaction may change both units, so the
operations that issue one are followed here by the parameters they leave. -/

namespace Sys2Proof.Laws

open Sys2Proof.Machine

variable {s t : State}

theorem cfg_of_emu_only (h : t = setEmu t.emu s) : t.cfg = s.cfg := by rw [h, setEmu_cfg]

theorem cfg_of_log_only (h : t = setLog t.log s) : t.cfg = s.cfg := by rw [h, setLog_cfg]

theorem reqWrite_cfg {target : BusTarget} (h : reqWrite target s = .next t) : t.cfg = s.cfg := by
  obtain ⟨cmd, -, h⟩ := andThen_eq_next.mp h
  dsimp only at h
  split at h
  · cases h; rfl
  · exact (cfg_of_log_only (completeRequest_log_only h)).trans (issue_cfg s _)
  · obtain ⟨u, hu, h⟩ := andThen_eq_next.mp h
    cases h
    exact (cfg_of_emu_only (writeReceived_emu_only hu)).trans (issue_cfg s _)

theorem reqRead_cfg {target : BusTarget} (h : reqRead target s = .next t) : t.cfg = s.cfg := by
  obtain ⟨n, -, h⟩ := andThen_eq_next.mp h
  obtain ⟨a, ha, h⟩ := andThen_eq_next.mp h
  obtain ⟨u, hu, h⟩ := andThen_eq_next.mp h
  obtain ⟨r, -, h⟩ := andThen_eq_next.mp h
  calc t.cfg = u.cfg := cfg_of_log_only (completeRequest_log_only h)
    _ = a.2.cfg := cfg_of_log_only (receive_log_only hu)
    _ = (issue (.read s.cfg.i2cAddr (3 * n)) s).cfg := cfg_of_emu_only (readAnswer_emu_only ha)
    _ = s.cfg := issue_cfg s _

theorem readerStep_cfg {target : BusTarget} (h : readerStep target s = .next t) : t.cfg = s.cfg := by
  rcases readerStep_cases h with ⟨-, hw⟩ | ⟨-, hs⟩ | ⟨-, hr⟩
  · exact reqWrite_cfg hw
  · exact cfg_of_log_only (reqSettle_log_only hs)
  · exact reqRead_cfg hr

theorem loggerTurn_cfg {d : LogDraw} (h : loggerTurn d s = .next t) : t.cfg = s.cfg := by
  rcases loggerTurn_cases h with ⟨-, -, hc⟩ | ⟨-, -, ha⟩ | ⟨-, -, rfl⟩ | ⟨-, hr⟩
  · exact cfg_of_log_only (cycleStart_log_only hc)
  · exact cfg_of_log_only (arbStep_log_only ha)
  · rfl
  · exact readerStep_cfg hr

/-- The step of every input leaves the parameters as they are. -/
theorem runInput_cfg {i : Input} (h : runInput i s = .next t) : t.cfg = s.cfg := by
  cases i with
  | cmdWrite addr bytes =>
    simp only [runInput] at h
    split at h
    · exact cfg_of_emu_only (writeReceived_emu_only h)
    · cases h; rfl
  | busRead addr k =>
    simp only [runInput] at h
    split at h
    · exact cfg_of_emu_only (busRead_emu_only h)
    · cases h; rfl
  | tick => cases h; exact tickTurn_cfg s
  | logger d => exact loggerTurn_cfg h
  | resetEmu => cases h; rfl
  | resetLog => cases h; rfl

/-- Settles O52: a step is the step of its input, after the input is taken, and neither changes a parameter (R8). -/
theorem parametersNeverChange : Obligations.ParametersNeverChange := by
  intro s t h
  exact (runInput_cfg h).trans (consumeInput_cfg s)

end Sys2Proof.Laws
end

