-- ==== Sys2Proof/Proofs/CommandStep.lean ====
section
/-! The command step of R120 in one shape for every command: what the command itself changes, then its response. -/

namespace Sys2Proof.Laws

open Sys2Proof.Machine Sys2Proof.Safety

variable {s t : State} {i : Instr}

/-! ### A command's own effect (R130 to R138) -/

/-- What a command changes before its response: the counter, the tick flag, an event, or nothing. `exec_eq` ties it to
the model. -/
def commandEffect (i : Instr) (s : State) : State :=
  match i with
  | .startMeasurement => setEmu { s.emu with pm25 := s.cfg.pm25Baseline } s
  | .readDataReady => s
  | .readMeasured => s
  | .readRaw => s
  | .readRawMystery => setTick s
  | .unrecognized op => raiseEmu (.unrecognizedCommand op) s

/-- Every command's step is R120's: begin, the command's effect, the response. -/
theorem exec_eq (i : Instr) (s : State) :
    exec i s = andThen (beginCommand s) fun u =>
      respond (commandWords u.cfg u.emu.pm25 i) (commandEffect i u) := by
  cases i <;> rfl

/-- A command's effect is on the emulator's counter, tick flag and events alone. -/
theorem commandEffect_frame (i : Instr) (s : State) :
    commandEffect i s = setEmu { s.emu with
      pm25 := (commandEffect i s).emu.pm25
      tickPending := (commandEffect i s).emu.tickPending
      events := (commandEffect i s).emu.events } s := by
  cases i <;> rfl

@[simp] theorem commandEffect_tx : (commandEffect i s).emu.tx = s.emu.tx := by rw [commandEffect_frame]; rfl

/-- Only `START_MEASUREMENT` writes the counter (R130). -/
theorem commandEffect_pm25 (h : i ≠ .startMeasurement) : (commandEffect i s).emu.pm25 = s.emu.pm25 := by
  cases i with
  | startMeasurement => exact absurd rfl h
  | _ => rfl

/-- A response has at most 8 words (R85). -/
theorem commandWords_length_le (p : Params) (pm25 : Word) (i : Instr) : (commandWords p pm25 i).length ≤ 8 := by
  cases i <;> simp [commandWords]

/-! ### The step as a whole -/

/-- `emu.fsm` after a command is `Idle` exactly where the response has no words (R26). -/
theorem fsmAfter_length (ws : List Word) : fsmAfter ws.length = if ws = [] then .idle else .readyToSend := by
  cases ws <;> rfl

/-- A command answers in every state of `emu.fsm` but the unused one: its effect takes place, and its response is
buffered (R120). -/
theorem exec_answers (i : Instr) (h : s.emu.fsm ≠ .unused) : ∃ t, exec i s = .next t ∧
    Responded s t (commandWords s.cfg s.emu.pm25 i) ∧
    t.emu.pm25 = (commandEffect i s).emu.pm25 ∧
    t.emu.tickPending = (commandEffect i s).emu.tickPending ∧
    t.emu.events = (commandEffect i s).emu.events ∧
    (Memory.wf s.emu.tx = true → Memory.wf t.emu.tx = true) := by
  have hlen := commandWords_length_le s.cfg s.emu.pm25 i
  obtain ⟨tx, hresp, hframes, hrest, hwf⟩ := respond_spec (commandWords s.cfg s.emu.pm25 i)
    (commandEffect i (setEmu { s.emu with fsm := .dispatching, txLen := 0 } s)) hlen
  refine ⟨_, by rw [exec_eq, beginCommand_next h]; exact hresp,
    ⟨txLen_toNat hlen, fsmAfter_length _, hframes, by simpa using hrest, ?_, ?_, ?_, ?_⟩, ?_, ?_, ?_, by simpa using hwf⟩
  all_goals cases i <;> rfl

/-- Where `emu.fsm` holds its unused code, every command faults (R23). -/
theorem exec_unused (i : Instr) (h : s.emu.fsm = .unused) : exec i s = .fault .unusedFsm := by
  rw [exec_eq, beginCommand_unused h, andThen_fault]

/-- Everything a command's step that answers does: R120's response, and the command's effect. -/
theorem exec_next (h : exec i s = .next t) : s.emu.fsm ≠ .unused ∧
    Responded s t (commandWords s.cfg s.emu.pm25 i) ∧
    t.emu.pm25 = (commandEffect i s).emu.pm25 ∧
    t.emu.tickPending = (commandEffect i s).emu.tickPending ∧
    t.emu.events = (commandEffect i s).emu.events := by
  have hu : s.emu.fsm ≠ .unused := by
    intro hu
    rw [exec_unused i hu] at h
    cases h
  obtain ⟨t', ht', hresp, hpm, htick, hev, -⟩ := exec_answers i hu
  rw [ht'] at h
  cases h
  exact ⟨hu, hresp, hpm, htick, hev⟩

/-- Every command but `START_MEASUREMENT` leaves the counter (R130). -/
theorem exec_pm25 (h : exec i s = .next t) (hi : i ≠ .startMeasurement) : t.emu.pm25 = s.emu.pm25 := by
  obtain ⟨-, -, hpm, -⟩ := exec_next h
  exact hpm.trans (commandEffect_pm25 hi)

/-- Settles O8: `READ_MEASURED` is the command step whose effect is none and whose words are R30's. -/
theorem readMeasuredResult : Obligations.ReadMeasuredResult := by
  refine ⟨rfl, fun s hs => ?_⟩
  obtain ⟨t, ht, hresp, hpm, htick, hev, -⟩ := exec_answers .readMeasured hs
  exact ⟨t, ht, hresp, hpm, htick, hev⟩

/-! ### The unused codes -/

theorem busRead_unused (k : Nat) (h : s.emu.fsm = .unused) : busRead k s = .fault .unusedFsm := by
  simp only [busRead, h]

theorem loggerTurn_unused (d : LogDraw) (h : s.log.phase = .unused) : loggerTurn d s = .fault .unusedPhase := by
  simp only [loggerTurn, h]

/-- Settles O12: each unit's step looks at its unused code first. -/
theorem unusedCodesFault : Obligations.UnusedCodesFault := fun _ =>
  ⟨fun h => ⟨fun i => exec_unused i h, fun k => busRead_unused k h⟩, fun h d => loggerTurn_unused d h⟩

end Sys2Proof.Laws
end

