-- ==== Sys2Proof/Proofs/EmulatorInvariant.lean ====
section
/-! The emulator's part of the invariant (R24 to R26, R82): each of its events answers from it and keeps it. -/

namespace Sys2Proof.Laws

open Sys2Proof.Machine Sys2Proof.Safety

variable {s t : State}

/-- In a state of the invariant `emu.fsm` is not the unused code. -/
theorem fsm_ne_unused {e : Emu} (h : EmuInv e) : e.fsm ≠ .unused := by
  obtain ⟨-, -, ⟨hf, -⟩ | ⟨hf, -⟩, -⟩ := h <;> simp [hf]

/-- With no frame buffered the invariant asks for a canonical TxBuffer and `Idle` only. -/
theorem emuInv_idle {e : Emu} (hwf : Memory.wf e.tx = true) (hf : e.fsm = .idle) (hl : e.txLen = 0) : EmuInv e := by
  have hl : e.txLen.toNat = 0 := by simp [hl]
  exact ⟨hwf, by omega, .inl ⟨hf, hl⟩, fun i hi => by omega⟩

theorem emuInv_reset (p : Params) : EmuInv (Emu.reset p) := emuInv_idle rfl rfl rfl

/-- A response of at most 8 words leaves the emulator in order (R26, R82, R123). -/
theorem emuInv_of_responded {ws : List Word} (h : Responded s t ws) (hlen : ws.length ≤ 8)
    (hwf : Memory.wf t.emu.tx = true) : EmuInv t.emu := by
  refine ⟨hwf, by rw [h.len]; exact hlen, ?_, fun i hi => ?_⟩
  · have hl := h.len
    have hf := h.fsm
    cases ws with
    | nil => exact .inl ⟨hf, hl⟩
    | cons w ws => exact .inr ⟨hf, by simp [hl]⟩
  · rw [h.len] at hi
    exact frameIsValid_of_FrameAt (h.frames i ws[i] (List.getElem?_eq_getElem hi))

/-- Every command answers from the invariant and keeps it (R123). -/
theorem exec_keeps_emuInv (i : Instr) (h : EmuInv s.emu) : ∃ t, exec i s = .next t ∧ EmuInv t.emu := by
  obtain ⟨t, ht, hresp, -, -, -, hwf⟩ := exec_answers i (fsm_ne_unused h)
  exact ⟨t, ht, emuInv_of_responded hresp (commandWords_length_le _ _ _) (hwf h.1)⟩

/-- So does every write transaction, a command or none (R81). -/
theorem writeReceived_keeps_emuInv (bytes : List Byte) (h : EmuInv s.emu) :
    ∃ t, writeReceived bytes s = .next t ∧ EmuInv t.emu := by
  unfold writeReceived
  split
  · exact exec_keeps_emuInv _ h
  · exact ⟨s, rfl, h⟩

/-- In `Idle` a read is premature (R152). -/
theorem busRead_idle (k : Nat) (h : s.emu.fsm = .idle) : busRead k s =
    .next (raiseEmu (.prematureRead k) (setEmu { s.emu with busOut := freeBytes s.env.steps 0 k } s)) := by
  simp only [busRead, h]

/-- In `ReadyToSend` a read delivers the response and empties the buffer (R150, R151). -/
theorem busRead_ready (k : Nat) (h : s.emu.fsm = .readyToSend) : busRead k s =
    andThen (deliver s.emu s.env.steps k) fun out =>
      .next (setEmu { s.emu with txLen := 0, fsm := .idle, busOut := out } s) := by
  simp only [busRead, h]

/-- A bus read answers from the invariant with as many bytes as asked for, and keeps it (R151, R152). -/
theorem busRead_keeps_emuInv (k : Nat) (h : EmuInv s.emu) :
    ∃ t, busRead k s = .next t ∧ EmuInv t.emu ∧ t.emu.busOut.length = k := by
  obtain ⟨hwf, hlen, hfsm, hvalid⟩ := h
  rcases hfsm with ⟨hf, hl⟩ | ⟨hf, -⟩
  · exact ⟨_, busRead_idle k hf, ⟨hwf, hlen, .inl ⟨hf, hl⟩, hvalid⟩, freeBytes_length _ _ _⟩
  · obtain ⟨out, hout⟩ := deliver_answers s.env.steps k hlen hvalid
    obtain ⟨hk, -⟩ := deliver_next hout
    exact ⟨_, (busRead_ready k hf).trans (congrArg (andThen · _) hout), emuInv_idle hwf rfl rfl, hk⟩

theorem tickTurn_emu_only (s : State) : tickTurn s = setEmu (tickTurn s).emu s := by
  unfold tickTurn
  split <;> rfl

/-- A turn of `EMU.TICK` touches nothing of the response (R158). -/
theorem tickTurn_keeps_emuInv (h : EmuInv s.emu) : EmuInv (tickTurn s).emu := by
  unfold tickTurn
  split <;> exact h

end Sys2Proof.Laws
end

