-- ==== Sys2Proof/Proofs/BoundaryInvariant.lean ====
section
/-! The invariant of the step boundaries: reset meets it, and from it every step answers and keeps it (R24, R26, R82,
R123, R230). The logger's part is said phase by phase, as its steps are taken. -/

namespace Sys2Proof.Laws

open Sys2Proof.Machine Sys2Proof.Safety

variable {s t : State} {p : Params} {l : Log}

/-! ### The logger's part, phase by phase -/

/-- The receive buffer in canonical form, and the counts within their bounds (R43, R46). -/
def LogBounded (p : Params) (l : Log) : Prop :=
  Memory.wf l.rx = true ∧ l.rxCount.toNat ≤ 24 ∧ l.idleCount ≤ p.idleMin

/-- What the invariant says of the request and the records held in a phase (R205 to R208). -/
def PhaseInv (l : Log) : LogPhase → Prop
  | .cycleStart => l.rd = .idle
  | .arbWait => l.rd = .idle
  | .readyCheck => RequestIs l opReadDataReady 1
  | .readMeas => RequestIs l opReadMeasured 8
  | .readRaw => RequestIs l opReadRaw 4 ∧ l.written.meas = true
  | .readMyst => RequestIs l opReadRawMystery 4 ∧ l.written.meas = true ∧ l.written.raw = true
  | .cycleEnd => l.rd = .idle
  | .unused => False

/-- The two together are the logger's part of the invariant. -/
theorem logInv_iff : LogInv p l ↔ LogBounded p l ∧ PhaseInv l l.phase := by
  simp only [LogInv, LogBounded, and_assoc]
  refine and_congr_right fun _ => and_congr_right fun _ => and_congr_right fun _ => ?_
  cases l.phase <;> simp [PhaseInv, opReadDataReady, opReadMeasured, opReadRaw, opReadRawMystery, RequestIs,
    and_assoc]

theorem logInv_reset (p : Params) : LogInv p Log.reset := logInv_iff.mpr ⟨⟨rfl, Nat.zero_le _, Nat.zero_le _⟩, rfl⟩

/-- A request is in progress only in a request phase, and there it is for one of the four opcodes and for 1 to 8
words. -/
theorem request_of_logInv (h : LogInv p l) (hrd : l.rd ≠ .idle) :
    (l.phase = .readyCheck ∨ l.phase = .readMeas ∨ l.phase = .readRaw ∨ l.phase = .readMyst) ∧
    l.written.request = true ∧ l.cmd ≠ opStartMeasurement ∧ 0 < l.nwords.toNat ∧ l.nwords.toNat ≤ 8 := by
  obtain ⟨-, hp⟩ := logInv_iff.mp h
  cases hph : l.phase <;> simp only [hph, PhaseInv] at hp
  case cycleStart | arbWait | cycleEnd => exact absurd hp hrd
  case readyCheck | readMeas =>
    obtain ⟨-, hq, hc, hn⟩ := hp
    exact ⟨by simp, hq, by rw [hc]; decide, by omega, by omega⟩
  case readRaw | readMyst =>
    obtain ⟨⟨-, hq, hc, hn⟩, -⟩ := hp
    exact ⟨by simp, hq, by rw [hc]; decide, by omega, by omega⟩

/-- The steps of one request move the reader on and leave the rest of the phase's invariant. -/
theorem phaseInv_setRd {ph : LogPhase} {rd : ReaderState} (h : PhaseInv l ph) (hrd : l.rd ≠ .idle) (hrd' : rd ≠ .idle) :
    PhaseInv { l with rd := rd } ph := by
  cases ph with
  | cycleStart | arbWait | cycleEnd => exact absurd h hrd
  | readyCheck | readMeas => exact ⟨hrd', h.2⟩
  | readRaw | readMyst => exact ⟨⟨hrd', h.1.2⟩, h.2⟩
  | unused => exact h

/-- The receive buffer and its count are no part of it. -/
theorem phaseInv_received {ph : LogPhase} {rx : Memory} {n : BitVec 5} (h : PhaseInv l ph) :
    PhaseInv { l with rx := rx, rxCount := n } ph := by
  cases ph <;> exact h

theorem requestIs_withRequest {ph : LogPhase} {cmd : Word} {n : Nat} (hn : n ≤ 8) :
    RequestIs (withRequest l ph cmd n) cmd n :=
  ⟨by simp [withRequest], rfl, rfl, txLen_toNat hn⟩

/-- The end of a cycle is in order in every state with no request in progress. -/
theorem endCycle_logInv (hb : LogBounded p s.log) (hrd : s.log.rd = .idle) : LogInv p (endCycle s).log :=
  logInv_iff.mpr ⟨hb, hrd⟩

/-! ### Completion (R197, R206 to R209) -/

theorem exists_measuredOf {ws : List Word} (h : ws.length = 8) : ∃ m, measuredOf ws = some m := by
  match ws, h with
  | [_, _, _, _, _, _, _, _], _ => exact ⟨_, rfl⟩

theorem exists_rawOf {ws : List Word} (h : ws.length = 4) : ∃ r, rawOf ws = some r := by
  match ws, h with
  | [_, _, _, _], _ => exact ⟨_, rfl⟩

theorem exists_mystOf {ws : List Word} (h : ws.length = 4) : ∃ r, mystOf ws = some r := by
  match ws, h with
  | [_, _, _, _], _ => exact ⟨_, rfl⟩

/-- The first request of a cycle starts in order (R205). -/
theorem afterClearance_keeps_logInv (hb : LogBounded p s.log) (hrd : s.log.rd = .idle) :
    ∃ t, afterClearance s = .next t ∧ LogInv p t.log := by
  refine ⟨_, afterClearance_next.mpr ⟨hrd, rfl⟩, ?_⟩
  rw [setLog_log]
  split
  · exact logInv_iff.mpr ⟨hb, requestIs_withRequest (by decide)⟩
  · exact logInv_iff.mpr ⟨hb, requestIs_withRequest (by decide)⟩

theorem continueReady_keeps_logInv {ws : List Word} (hb : LogBounded p s.log) (hrd : s.log.rd = .idle)
    (hlen : ws.length = 1) : ∃ t, continueReady (.ok ws) s = .next t ∧ LogInv p t.log := by
  obtain ⟨w, rfl⟩ := List.length_eq_one_iff.mp hlen
  simp only [continueReady]
  split
  · exact ⟨_, enterPhase_next.mpr ⟨by decide, hrd, rfl⟩, logInv_iff.mpr ⟨hb, requestIs_withRequest (by decide)⟩⟩
  · exact ⟨_, rfl, endCycle_logInv hb hrd⟩

theorem continueMeas_keeps_logInv {ws : List Word} (hb : LogBounded p s.log) (hrd : s.log.rd = .idle)
    (hlen : ws.length = 8) : ∃ t, continueMeas (.ok ws) s = .next t ∧ LogInv p t.log := by
  obtain ⟨m, hm⟩ := exists_measuredOf hlen
  simp only [continueMeas, hm]
  exact ⟨_, enterPhase_next.mpr ⟨by decide, hrd, rfl⟩, logInv_iff.mpr ⟨hb, requestIs_withRequest (by decide), rfl⟩⟩

theorem continueRaw_keeps_logInv {ws : List Word} (hb : LogBounded p s.log) (hrd : s.log.rd = .idle)
    (hmeas : s.log.written.meas = true) (hlen : ws.length = 4) :
    ∃ t, continueRaw (.ok ws) s = .next t ∧ LogInv p t.log := by
  obtain ⟨r, hr⟩ := exists_rawOf hlen
  simp only [continueRaw, hr]
  exact ⟨_, enterPhase_next.mpr ⟨by decide, hrd, rfl⟩,
    logInv_iff.mpr ⟨hb, requestIs_withRequest (by decide), hmeas, rfl⟩⟩

theorem continueMyst_keeps_logInv {ws : List Word} (hb : LogBounded p s.log) (hrd : s.log.rd = .idle)
    (hmeas : s.log.written.meas = true) (hraw : s.log.written.raw = true) (hlen : ws.length = 4) :
    ∃ t, continueMyst (.ok ws) s = .next t ∧ LogInv p t.log := by
  obtain ⟨r, hr⟩ := exists_mystOf hlen
  have hemit := (emitRecord_next (s := setLog { s.log with
    myst := r, written := { s.log.written with myst := true } } s)).mpr ⟨hmeas, hraw, rfl, rfl⟩
  simp only [continueMyst, hr, hemit, andThen_next]
  exact ⟨_, rfl, endCycle_logInv hb hrd⟩

/-- A failed request ends the cycle in each request phase (R211). -/
theorem continueCycle_err_answers (e : ProtocolError) (h : s.log.phase = .readyCheck ∨ s.log.phase = .readMeas ∨
    s.log.phase = .readRaw ∨ s.log.phase = .readMyst) : continueCycle (.err e) s = .next (endCycle s) := by
  rcases h with h | h | h | h <;> simp only [continueCycle, h] <;> rfl

/-- A request that ends, with as many words as it asked for where it succeeds, leaves the logger in order. -/
theorem completeRequest_keeps_logInv {r : Reply} (h : LogInv p s.log) (hrd : s.log.rd ≠ .idle)
    (hr : ∀ ws, r = .ok ws → ws.length = s.log.nwords.toNat) :
    ∃ t, completeRequest r s = .next t ∧ LogInv p t.log := by
  obtain ⟨hphase, hq, -⟩ := request_of_logInv h hrd
  obtain ⟨hb, hinv⟩ := logInv_iff.mp h
  cases r with
  | failed f =>
    simp only [completeRequest, logCmd_next.mpr ⟨hq, rfl⟩, andThen_next]
    exact ⟨_, continueCycle_err_answers _ hphase, endCycle_logInv hb rfl⟩
  | ok ws =>
    have hlen := hr ws rfl
    rw [completeRequest_ok]
    rcases hphase with hp | hp | hp | hp <;>
      simp only [hp, PhaseInv] at hinv <;> simp only [continueCycle, storeResult_log, hp]
    · obtain ⟨-, -, -, hn⟩ := hinv
      exact continueReady_keeps_logInv hb rfl (hlen.trans hn)
    · obtain ⟨-, -, -, hn⟩ := hinv
      exact continueMeas_keeps_logInv hb rfl (hlen.trans hn)
    · obtain ⟨⟨-, -, -, hn⟩, hmeas⟩ := hinv
      exact continueRaw_keeps_logInv hb rfl hmeas (hlen.trans hn)
    · obtain ⟨⟨-, -, -, hn⟩, hmeas, hraw⟩ := hinv
      exact continueMyst_keeps_logInv hb rfl hmeas hraw (hlen.trans hn)

/-! ### The reader's steps (R191 to R194) -/

theorem boundaryInv_of_emu_only (h : BoundaryInv s) (ht : t = setEmu t.emu s) (he : EmuInv t.emu) : BoundaryInv t := by
  obtain ⟨hcfg, -, hlog⟩ := h
  rw [ht]
  exact ⟨hcfg, he, hlog⟩

theorem boundaryInv_of_log_only (h : BoundaryInv s) (ht : t = setLog t.log s) (hl : LogInv s.cfg t.log) :
    BoundaryInv t := by
  obtain ⟨hcfg, hemu, -⟩ := h
  rw [ht]
  exact ⟨hcfg, hemu, hl⟩

/-- The transactions issued are no part of the invariant. -/
theorem boundaryInv_issue (tx : BusTx) (h : BoundaryInv s) : BoundaryInv (issue tx s) := h

theorem boundaryInv_setRd {rd : ReaderState} (h : BoundaryInv s) (hrd : s.log.rd ≠ .idle) (hrd' : rd ≠ .idle) :
    BoundaryInv (setLog { s.log with rd := rd } s) := by
  have ⟨_, _, hlog⟩ := h
  obtain ⟨hb, hp⟩ := logInv_iff.mp hlog
  exact boundaryInv_of_log_only h rfl (logInv_iff.mpr ⟨hb, phaseInv_setRd hp hrd hrd'⟩)

theorem completeRequest_keeps {r : Reply} (h : BoundaryInv s) (hrd : s.log.rd ≠ .idle)
    (hr : ∀ ws, r = .ok ws → ws.length = s.log.nwords.toNat) : ∃ t, completeRequest r s = .next t ∧ BoundaryInv t := by
  have ⟨_, _, hlog⟩ := h
  obtain ⟨t, ht, hl⟩ := completeRequest_keeps_logInv hlog hrd hr
  exact ⟨t, ht, boundaryInv_of_log_only h (completeRequest_log_only ht) hl⟩

theorem reqWrite_keeps (target : BusTarget) (h : BoundaryInv s) (hrd : s.log.rd ≠ .idle) :
    ∃ t, reqWrite target s = .next t ∧ BoundaryInv t := by
  have ⟨_, _, hlog⟩ := h
  obtain ⟨-, hq, -⟩ := request_of_logInv hlog hrd
  simp only [reqWrite, logCmd_next.mpr ⟨hq, rfl⟩, andThen_next]
  have hi := boundaryInv_issue (.write s.cfg.i2cAddr [highByte s.log.cmd, lowByte s.log.cmd]) h
  match target with
  | .transport true _ => exact ⟨_, rfl, boundaryInv_setRd hi hrd (by decide)⟩
  | .transport false _ => exact completeRequest_keeps hi hrd (by simp)
  | .emulator =>
    have ⟨_, hiemu, _⟩ := hi
    obtain ⟨t, ht, he⟩ := writeReceived_keeps_emuInv [highByte s.log.cmd, lowByte s.log.cmd] hiemu
    have hframe := writeReceived_emu_only ht
    simp only [ht, andThen_next]
    exact ⟨_, rfl, boundaryInv_setRd (boundaryInv_of_emu_only hi hframe he) (by rw [hframe]; exact hrd) (by decide)⟩

theorem reqSettle_keeps (h : BoundaryInv s) (hrd : s.log.rd ≠ .idle) : ∃ t, reqSettle s = .next t ∧ BoundaryInv t := by
  have ⟨_, _, hlog⟩ := h
  obtain ⟨-, hq, -, hn, -⟩ := request_of_logInv hlog hrd
  simp only [reqSettle, logNwords_next.mpr ⟨hq, rfl⟩, andThen_next, if_neg hn.ne']
  exact ⟨_, rfl, boundaryInv_setRd h hrd (by decide)⟩

/-- The answer to a read has at most the bytes asked for, and the emulator that gave it is in order (R200, R216). -/
theorem readAnswer_keeps (target : BusTarget) (k : Nat) (h : BoundaryInv s) :
    ∃ a, readAnswer target k s = .next a ∧ a.1.length ≤ k ∧ a.2.log = s.log ∧ BoundaryInv a.2 := by
  match target with
  | .transport _ data => exact ⟨_, rfl, List.length_take_le k data, rfl, h⟩
  | .emulator =>
    have ⟨_, hemu, _⟩ := h
    obtain ⟨u, hu, he, hout⟩ := busRead_keeps_emuInv k hemu
    have hframe := busRead_emu_only hu
    refine ⟨(u.emu.busOut, u), by simp only [readAnswer, hu, andThen_next], hout.le, ?_,
      boundaryInv_of_emu_only h hframe he⟩
    rw [hframe, setEmu_log]

/-- Received bytes that fit keep the invariant, and the bytes counted hold values (R194). -/
theorem receive_keeps {bytes : List Byte} (h : BoundaryInv s) (hlen : bytes.length ≤ 24) :
    ∃ t, receive bytes s = .next t ∧ BoundaryInv t ∧
      t.log.rd = s.log.rd ∧
      ∀ a, a < t.log.rxCount.toNat → (byteAt t.log.rx a).isSome = true := by
  have ⟨_, _, hlog⟩ := h
  obtain ⟨⟨hwf, -, hidle⟩, hp⟩ := logInv_iff.mp hlog
  obtain ⟨rx, hrx, -, hwf'⟩ := receive_spec bytes s hlen
  obtain ⟨⟨hcount, hbytes⟩, -⟩ := receive_received hrx
  refine ⟨_, hrx, boundaryInv_of_log_only h rfl (logInv_iff.mpr ⟨⟨hwf' hwf, ?_, hidle⟩, ?_⟩), rfl, fun a ha => ?_⟩
  · rw [hcount]; exact hlen
  · exact phaseInv_received hp
  · rw [hcount] at ha
    rw [hbytes a, if_pos ha, List.getElem?_eq_getElem ha, Option.isSome_some]

theorem reqRead_keeps (target : BusTarget) (h : BoundaryInv s) (hrd : s.log.rd ≠ .idle) :
    ∃ t, reqRead target s = .next t ∧ BoundaryInv t := by
  have ⟨_, _, hlog⟩ := h
  obtain ⟨-, hq, -, -, hn⟩ := request_of_logInv hlog hrd
  simp only [reqRead, logNwords_next.mpr ⟨hq, rfl⟩, andThen_next]
  obtain ⟨a, ha, hlen, halog, hainv⟩ := readAnswer_keeps target (3 * s.log.nwords.toNat)
    (boundaryInv_issue (.read s.cfg.i2cAddr (3 * s.log.nwords.toNat)) h)
  obtain ⟨u, hu, huinv, hurd, hval⟩ := receive_keeps hainv (bytes := a.1) (by omega)
  have hurd : u.log.rd ≠ .idle := by rw [hurd, halog]; exact hrd
  have ⟨_, _, hulog⟩ := huinv
  obtain ⟨-, huq, -, -, hun⟩ := request_of_logInv hulog hurd
  obtain ⟨r, hr⟩ := validate_answers huq hun hval
  simp only [ha, hu, hr, andThen_next]
  refine completeRequest_keeps huinv hurd fun ws hws => ?_
  rcases validate_cases hr with ⟨rfl, -⟩ | ⟨-, ws', rfl, hl, -⟩ | ⟨-, j, -, rfl, -⟩
  · cases hws
  · cases hws; exact hl
  · cases hws

theorem readerStep_keeps (target : BusTarget) (h : BoundaryInv s) (hrd : s.log.rd ≠ .idle) :
    ∃ t, readerStep target s = .next t ∧ BoundaryInv t := by
  cases hr : s.log.rd <;> simp only [readerStep, hr]
  case idle => exact absurd hr hrd
  case write => exact reqWrite_keeps target h hrd
  case settle => exact reqSettle_keeps h hrd
  case read => exact reqRead_keeps target h hrd

/-! ### The monitor, the cycle, and the whole step -/

theorem afterClearance_keeps (h : BoundaryInv s) (hrd : s.log.rd = .idle) :
    ∃ t, afterClearance s = .next t ∧ BoundaryInv t := by
  have ⟨_, _, hlog⟩ := h
  obtain ⟨hb, -⟩ := logInv_iff.mp hlog
  obtain ⟨t, ht, hl⟩ := afterClearance_keeps_logInv hb hrd
  exact ⟨t, ht, boundaryInv_of_log_only h (afterClearance_log_only ht) hl⟩

theorem cycleStart_keeps (h : BoundaryInv s) (hrd : s.log.rd = .idle) :
    ∃ t, cycleStart s = .next t ∧ BoundaryInv t := by
  have ⟨_, _, hlog⟩ := h
  obtain ⟨⟨hwf, hcount, -⟩, -⟩ := logInv_iff.mp hlog
  unfold cycleStart
  split
  · exact ⟨_, rfl, boundaryInv_of_log_only h rfl (logInv_iff.mpr ⟨⟨hwf, hcount, Nat.zero_le _⟩, hrd⟩)⟩
  · exact afterClearance_keeps h hrd

/-- The window never passes `IDLE_MIN`, so a sample or the clearance is enabled (R173, R174). -/
theorem arbStep_keeps (v : Bool) (h : BoundaryInv s) (hph : s.log.phase = .arbWait) (hrd : s.log.rd = .idle) :
    ∃ t, arbStep v s = .next t ∧ BoundaryInv t := by
  have ⟨_, _, hlog⟩ := h
  obtain ⟨⟨hwf, hcount, hidle⟩, -⟩ := logInv_iff.mp hlog
  unfold arbStep
  split
  · rename_i hlt
    refine ⟨_, rfl, boundaryInv_of_log_only h rfl (logInv_iff.mpr ⟨⟨hwf, hcount, ?_⟩, ?_⟩)⟩
    · rw [arbSample_log]; dsimp only; split <;> omega
    · simpa [hph, PhaseInv] using hrd
  · rename_i hge
    have hc : cleared s = true := by simp only [cleared, beq_iff_eq]; omega
    rw [if_pos hc]
    exact afterClearance_keeps h hrd

theorem cycleEnd_keeps (h : BoundaryInv s) (hrd : s.log.rd = .idle) : BoundaryInv (cycleEnd s) := by
  have ⟨_, _, hlog⟩ := h
  obtain ⟨hb, -⟩ := logInv_iff.mp hlog
  exact boundaryInv_of_log_only h rfl (logInv_iff.mpr ⟨hb, hrd⟩)

theorem loggerTurn_keeps (d : LogDraw) (h : BoundaryInv s) : ∃ t, loggerTurn d s = .next t ∧ BoundaryInv t := by
  have ⟨_, _, hlog⟩ := h
  obtain ⟨-, hp⟩ := logInv_iff.mp hlog
  cases hph : s.log.phase <;> simp only [hph, PhaseInv] at hp <;> simp only [loggerTurn, hph, whenIdle]
  case cycleStart => rw [if_pos hp]; exact cycleStart_keeps h hp
  case arbWait => rw [if_pos hp]; exact arbStep_keeps d.sense h hph hp
  case cycleEnd => rw [if_pos hp]; exact ⟨_, rfl, cycleEnd_keeps h hp⟩
  case readyCheck | readMeas => exact readerStep_keeps d.target h hp.1
  case readRaw | readMyst => exact readerStep_keeps d.target h hp.1.1

/-- The step of every input answers from the invariant and keeps it. -/
theorem runInput_keeps (i : Input) (h : BoundaryInv s) : ∃ t, runInput i s = .next t ∧ BoundaryInv t := by
  have ⟨_, hemu, _⟩ := h
  cases i with
  | cmdWrite addr bytes =>
    simp only [runInput]
    split
    · obtain ⟨t, ht, he⟩ := writeReceived_keeps_emuInv bytes hemu
      exact ⟨t, ht, boundaryInv_of_emu_only h (writeReceived_emu_only ht) he⟩
    · exact ⟨s, rfl, h⟩
  | busRead addr k =>
    simp only [runInput]
    split
    · obtain ⟨t, ht, he, -⟩ := busRead_keeps_emuInv k hemu
      exact ⟨t, ht, boundaryInv_of_emu_only h (busRead_emu_only ht) he⟩
    · exact ⟨s, rfl, h⟩
  | tick => exact ⟨_, rfl, boundaryInv_of_emu_only h (tickTurn_emu_only s) (tickTurn_keeps_emuInv hemu)⟩
  | logger d => exact loggerTurn_keeps d h
  | resetEmu => exact ⟨_, rfl, boundaryInv_of_emu_only h rfl (emuInv_reset s.cfg)⟩
  | resetLog => exact ⟨_, rfl, boundaryInv_of_log_only h rfl (logInv_reset s.cfg)⟩

/-- Taking the input changes the environment's part alone, of which the invariant says nothing. -/
theorem boundaryInv_consumeInput (h : BoundaryInv s) : BoundaryInv (consumeInput s) := h

/-- Settles O51: the step is the step of its input, and each unit's part of the invariant is kept by its own
operations. -/
theorem everyStepAnswersAndKeepsInvariant : Obligations.EveryStepAnswersAndKeepsInvariant :=
  fun s h => runInput_keeps (nextInput s) (boundaryInv_consumeInput h)

/-! ### Reset (R260 to R262) -/

/-- The integrator's baseline is the lesser of the two free words, and its ready flag is 0 (R7, R265). -/
theorem chosen_admissible : Config.chosen.admissible = true := by
  by_cases hle : Config.pm25BoundA.toNat ≤ Config.pm25BoundB.toNat
  · simp [Params.admissible, Config.chosen, hle]
  · simp [Params.admissible, Config.chosen, hle, Nat.le_of_not_le hle]

theorem boundaryInv_resetWith (h : p.admissible = true) : BoundaryInv (State.resetWith p) :=
  ⟨h, emuInv_reset p, logInv_reset p⟩

/-- Settles O50: both units' reset values are in order under every configuration. -/
theorem resetMeetsInvariant : Obligations.ResetMeetsInvariant :=
  ⟨fun _ h => boundaryInv_resetWith h, boundaryInv_resetWith chosen_admissible⟩

end Sys2Proof.Laws
end

