-- ==== Sys2Proof/Proofs/Units.lean ====
section
/-! What one unit's step does to the other (R21, R70, R216): the logger reaches the emulator only by a transaction it
issues to it, and the emulator's steps neither write nor read the logger. -/

namespace Sys2Proof.Laws

open Sys2Proof.Machine Sys2Proof.Safety

variable {s t : State}

/-! ### The transactions a turn of `LOG` issues -/

/-- The completion of a request issues nothing (R197). -/
theorem continueCycle_issued {res : RequestResult} (h : continueCycle res s = .next t) :
    t.log.issued = s.log.issued := by
  rcases continueCycle_cases h with ⟨-, h⟩ | ⟨-, h⟩ | ⟨-, h⟩ | ⟨-, h⟩
  · rcases continueReady_cases h with ⟨w, -, -, -, rfl⟩ | ⟨w, -, -, rfl⟩ | ⟨-, rfl⟩ <;> rfl
  · rcases continueMeas_cases h with ⟨m, -, -, rfl⟩ | ⟨e, -, rfl⟩ <;> rfl
  · rcases continueRaw_cases h with ⟨r, -, -, rfl⟩ | ⟨e, -, rfl⟩ <;> rfl
  · rcases continueMyst_cases h with ⟨r, -, -, -, rfl⟩ | ⟨e, -, rfl⟩ <;> rfl

theorem completeRequest_issued {r : Reply} (h : completeRequest r s = .next t) : t.log.issued = s.log.issued := by
  cases r with
  | ok ws =>
    rw [completeRequest_ok] at h
    have hissued := continueCycle_issued h
    rwa [storeResult_log] at hissued
  | failed f => obtain ⟨-, rfl⟩ := completeRequest_failed h; rfl

theorem receive_issued {bytes : List Byte} (h : receive bytes s = .next t) : t.log.issued = s.log.issued := by
  obtain ⟨rx, -, h⟩ := andThen_eq_next.mp h
  cases h
  rfl

/-- The logger has issued `tx` to an emulator target: `t` holds the emulator after its own event for the transaction, a
write of `log.cmd` or a read (R216). -/
def IssuedToEmulator (tx : BusTx) (s t : State) : Prop :=
  t.log.issued = s.log.issued ++ [tx] ∧ ∃ u, t.emu = u.emu ∧
    (writeReceived [highByte s.log.cmd, lowByte s.log.cmd] (issue tx s) = .next u ∨
      ∃ k, busRead k (issue tx s) = .next u)

theorem reqWrite_effect {target : BusTarget} (h : reqWrite target s = .next t) :
    t = setLog t.log s ∨ target = .emulator ∧ ∃ tx, IssuedToEmulator tx s t := by
  obtain ⟨cmd, hcmd, h⟩ := andThen_eq_next.mp h
  obtain ⟨-, rfl⟩ := logCmd_next.mp hcmd
  dsimp only at h
  split at h
  · cases h; exact .inl rfl
  · exact .inl (setLog_trans (completeRequest_log_only h) rfl)
  · obtain ⟨u, hu, h⟩ := andThen_eq_next.mp h
    cases h
    have hissued := congrArg (fun v => v.log.issued) (writeReceived_emu_only hu)
    exact .inr ⟨rfl, _, hissued, u, rfl, .inl hu⟩

theorem reqRead_effect {target : BusTarget} (h : reqRead target s = .next t) :
    t = setLog t.log s ∨ target = .emulator ∧ ∃ tx, IssuedToEmulator tx s t := by
  obtain ⟨n, -, h⟩ := andThen_eq_next.mp h
  obtain ⟨a, ha, h⟩ := andThen_eq_next.mp h
  obtain ⟨u, hu, h⟩ := andThen_eq_next.mp h
  obtain ⟨r, -, hr⟩ := andThen_eq_next.mp h
  have hframe : t = setLog t.log a.2 := setLog_trans (completeRequest_log_only hr) (receive_log_only hu)
  cases target with
  | transport ok data => cases ha; exact .inl (setLog_trans hframe rfl)
  | emulator =>
    have hissued := calc t.log.issued
      _ = u.log.issued := completeRequest_issued hr
      _ = a.2.log.issued := receive_issued hu
      _ = s.log.issued ++ [.read s.cfg.i2cAddr (3 * n)] :=
        congrArg (fun v => v.log.issued) (readAnswer_emu_only ha)
    obtain ⟨v, hv, ha⟩ := andThen_eq_next.mp ha
    cases ha
    exact .inr ⟨rfl, _, hissued, v, by rw [hframe, setLog_emu], .inr ⟨3 * n, hv⟩⟩

theorem readerStep_effect {target : BusTarget} (h : readerStep target s = .next t) :
    t = setLog t.log s ∨ target = .emulator ∧ ∃ tx, IssuedToEmulator tx s t := by
  rcases readerStep_cases h with ⟨-, h⟩ | ⟨-, h⟩ | ⟨-, h⟩
  · exact reqWrite_effect h
  · exact .inl (reqSettle_log_only h)
  · exact reqRead_effect h

/-- A turn of `LOG` changes the logger alone, or issues a transaction to an emulator target, and then the emulator has
its own event for it in the same step (R216). -/
theorem loggerTurn_effect {d : LogDraw} (h : loggerTurn d s = .next t) :
    t = setLog t.log s ∨ d.target = .emulator ∧ ∃ tx, IssuedToEmulator tx s t := by
  rcases loggerTurn_cases h with ⟨-, -, h⟩ | ⟨-, -, h⟩ | ⟨-, -, rfl⟩ | ⟨-, h⟩
  · exact .inl (cycleStart_log_only h)
  · exact .inl (arbStep_log_only h)
  · exact .inl rfl
  · exact readerStep_effect h

/-! ### The emulator's steps and the logger -/

/-- Every input but a turn or the reset of the logger changes the emulator alone (R21). -/
theorem runInput_emu_only {i : Input} (hl : ∀ d, i ≠ .logger d) (hr : i ≠ .resetLog) (h : runInput i s = .next t) :
    t = setEmu t.emu s := by
  cases i with
  | cmdWrite addr bytes =>
    simp only [runInput] at h
    split at h
    · exact writeReceived_emu_only h
    · cases h; rfl
  | busRead addr k =>
    simp only [runInput] at h
    split at h
    · exact busRead_emu_only h
    · cases h; rfl
  | tick => cases h; exact tickTurn_emu_only s
  | logger d => exact absurd rfl (hl d)
  | resetEmu => cases h; rfl
  | resetLog => exact absurd rfl hr

/-- Settles O53: the logger's part is the frame of the other inputs; the emulator's part is that a turn of `LOG` touches
it only by a transaction issued to an emulator target. -/
theorem unitsShareNoState : Obligations.UnitsShareNoState := by
  intro s t h
  refine ⟨fun hl hr => ?_, fun d hd hquiet => ?_, fun hr => ?_⟩
  · rw [runInput_emu_only hl hr h, setEmu_log, consumeInput_log]
  · rw [step_logger hd] at h
    rcases loggerTurn_effect h with hframe | ⟨hemu, tx, hissued, -⟩
    · rw [hframe, setLog_emu, consumeInput_emu]
    · rcases hquiet with hsame | ⟨ok, data, htransport⟩
      · rw [hsame, consumeInput_log] at hissued
        simp at hissued
      · rw [hemu] at htransport
        cases htransport
  · rw [step_resetLog hr] at h
    cases h
    rfl

/-! ### The emulator's steps beside another logger -/

variable (l : Log)

theorem beginCommand_setLog (h : beginCommand s = .next t) : beginCommand (setLog l s) = .next (setLog l t) := by
  obtain ⟨hu, rfl⟩ := beginCommand_inv h
  exact beginCommand_next hu

theorem commandEffect_setLog (i : Instr) (s : State) :
    commandEffect i (setLog l s) = setLog l (commandEffect i s) := by
  cases i <;> rfl

theorem respond_setLog {ws : List Word} (h : respond ws s = .next t) :
    respond ws (setLog l s) = .next (setLog l t) := by
  obtain ⟨tx, htx, h⟩ := andThen_eq_next.mp h
  cases h
  exact andThen_eq_next.mpr ⟨tx, htx, rfl⟩

theorem exec_setLog {i : Instr} (h : exec i s = .next t) : exec i (setLog l s) = .next (setLog l t) := by
  rw [exec_eq] at h ⊢
  obtain ⟨u, hu, h⟩ := andThen_eq_next.mp h
  refine andThen_eq_next.mpr ⟨setLog l u, beginCommand_setLog l hu, ?_⟩
  rw [commandEffect_setLog]
  exact respond_setLog l h

theorem writeReceived_setLog {bytes : List Byte} (h : writeReceived bytes s = .next t) :
    writeReceived bytes (setLog l s) = .next (setLog l t) := by
  unfold writeReceived at h ⊢
  split at h
  · exact exec_setLog l h
  · cases h; rfl

theorem busRead_setLog {k : Nat} (h : busRead k s = .next t) : busRead k (setLog l s) = .next (setLog l t) := by
  rcases busRead_cases h with ⟨hf, out, hout, rfl⟩ | ⟨hf, rfl⟩
  · rw [busRead_ready k (by exact hf)]
    exact andThen_eq_next.mpr ⟨out, hout, rfl⟩
  · exact busRead_idle k hf

theorem tickTurn_setLog (s : State) : tickTurn (setLog l s) = setLog l (tickTurn s) := by
  cases hp : s.emu.tickPending with
  | true => rw [tickTurn_pending hp, tickTurn_pending (by exact hp)]; rfl
  | false => rw [tickTurn_none hp, tickTurn_none (by exact hp)]

/-- Where an input is no turn of the logger, the emulator after it is the same beside every logger. -/
theorem runInput_setLog {i : Input} (hi : ∀ d, i ≠ .logger d) (h : runInput i s = .next t) :
    ∃ u, runInput i (setLog l s) = .next u ∧ u.emu = t.emu := by
  cases i with
  | cmdWrite addr bytes =>
    simp only [runInput] at h ⊢
    split at h
    · rename_i ha
      exact ⟨_, (if_pos ha).trans (writeReceived_setLog l h), rfl⟩
    · rename_i ha
      cases h
      exact ⟨_, if_neg ha, rfl⟩
  | busRead addr k =>
    simp only [runInput] at h ⊢
    split at h
    · rename_i ha
      exact ⟨_, (if_pos ha).trans (busRead_setLog l h), rfl⟩
    · rename_i ha
      cases h
      exact ⟨_, if_neg ha, rfl⟩
  | tick =>
    cases h
    exact ⟨_, rfl, by rw [tickTurn_setLog, setLog_emu]⟩
  | logger d => exact absurd rfl (hi d)
  | resetEmu => cases h; exact ⟨_, rfl, rfl⟩
  | resetLog => cases h; exact ⟨_, rfl, rfl⟩

/-- Settles O54: the next input is fixed without the logger, and no operation of the emulator reads it. -/
theorem emulatorIgnoresLogger : Obligations.EmulatorIgnoresLogger :=
  fun _ l _ hi h => runInput_setLog l hi h

end Sys2Proof.Laws
end

