-- ==== Sys2Proof/Proofs/TickSlot.lean ====
section
/-! The counter over a run (R27, R130, R155, R157): a tick, `START_MEASUREMENT` and the emulator's reset write it, and
the logger, whose requests are R205's to R208's, sends no `START_MEASUREMENT`. -/

namespace Sys2Proof.Laws

open Sys2Proof.Machine Sys2Proof.Safety

variable {s t : State}

/-! ### What leaves the counter -/

/-- The one opcode of `START_MEASUREMENT` (R84). -/
theorem decodeOpcode_eq_startMeasurement {op : Word} (h : decodeOpcode op = .startMeasurement) :
    op = opStartMeasurement := by
  rw [← encodeOpcode_decodeOpcode op, h]
  rfl

theorem writeReceived_pm25 {bytes : List Byte} (h : writeReceived bytes s = .next t)
    (hd : decode bytes ≠ .ok .startMeasurement) : t.emu.pm25 = s.emu.pm25 := by
  unfold writeReceived at h
  split at h
  · rename_i i hi
    exact exec_pm25 h (fun hs => hd (hs ▸ hi))
  · cases h; rfl

theorem busRead_pm25 {k : Nat} (h : busRead k s = .next t) : t.emu.pm25 = s.emu.pm25 := by
  rcases busRead_cases h with ⟨-, out, -, rfl⟩ | ⟨-, rfl⟩ <;> rfl

/-- An emulator target takes no `START_MEASUREMENT` from a logger whose request is another command. -/
theorem issuedToEmulator_pm25 {tx : BusTx} (h : IssuedToEmulator tx s t) (hcmd : s.log.cmd ≠ opStartMeasurement) :
    t.emu.pm25 = s.emu.pm25 := by
  obtain ⟨-, u, hu, hw | ⟨k, hr⟩⟩ := h
  · rw [hu, writeReceived_pm25 hw, issue_emu]
    intro hd
    rw [decode_cons_cons, wordOf_bytes, Except.ok.injEq] at hd
    exact hcmd (decodeOpcode_eq_startMeasurement hd)
  · rw [hu, busRead_pm25 hr, issue_emu]

/-- A turn of `LOG` leaves the counter: in the invariant its request is one of R205's to R208's (R214). -/
theorem loggerTurn_pm25 {d : LogDraw} (hinv : BoundaryInv s) (h : loggerTurn d s = .next t) :
    t.emu.pm25 = s.emu.pm25 := by
  rcases loggerTurn_cases h with ⟨-, -, h⟩ | ⟨-, -, h⟩ | ⟨-, -, rfl⟩ | ⟨-, h⟩
  · rw [cycleStart_log_only h, setLog_emu]
  · rw [arbStep_log_only h, setLog_emu]
  · rfl
  · have hrd : s.log.rd ≠ .idle := by
      rcases readerStep_cases h with ⟨hr, -⟩ | ⟨hr, -⟩ | ⟨hr, -⟩ <;> simp [hr]
    obtain ⟨-, -, hlog⟩ := hinv
    obtain ⟨-, -, hcmd, -⟩ := request_of_logInv hlog hrd
    rcases readerStep_effect h with hframe | ⟨-, tx, hissued⟩
    · rw [hframe, setLog_emu]
    · exact issuedToEmulator_pm25 hissued hcmd

/-- A step that consumes no tick and restarts no counter leaves it (R27). -/
theorem step_pm25 (hinv : BoundaryInv s) (hc : consumesTick s = false) (hr : restartsCounter s = false)
    (h : step s = .next t) : t.emu.pm25 = s.emu.pm25 := by
  rw [← consumeInput_emu s]
  cases hi : nextInput s with
  | cmdWrite addr bytes =>
    rw [step_cmdWrite hi] at h
    split at h
    · rename_i ha
      exact writeReceived_pm25 h fun hd => by simp [restartsCounter, hi, ha, hd] at hr
    · cases h; rfl
  | busRead addr k =>
    rw [step_busRead hi] at h
    split at h
    · exact busRead_pm25 h
    · cases h; rfl
  | tick =>
    have hnone : (consumeInput s).emu.tickPending = false := by simpa [consumesTick, hi] using hc
    rw [step_tick hi, tickTurn_none hnone] at h
    cases h; rfl
  | logger d =>
    rw [step_logger hi] at h
    exact loggerTurn_pm25 (boundaryInv_consumeInput hinv) h
  | resetEmu => simp [restartsCounter, hi] at hr
  | resetLog =>
    rw [step_resetLog hi] at h
    cases h; rfl

/-- A step that consumes a tick moves the counter on once (R155). -/
theorem step_pm25_of_consumesTick (hc : consumesTick s = true) (h : step s = .next t) :
    t.emu.pm25 = tickCounter s.cfg s.emu.pm25 := by
  cases hi : nextInput s <;> simp only [consumesTick, hi, Bool.false_eq_true] at hc
  rw [step_tick hi, tickTurn_pending (s := consumeInput s) hc] at h
  cases h
  rfl

/-! ### Runs -/

/-- A step that answers from the invariant keeps it. -/
theorem step_keeps_boundaryInv (hinv : BoundaryInv s) (h : step s = .next t) : BoundaryInv t := by
  obtain ⟨u, hu, huinv⟩ := everyStepAnswersAndKeepsInvariant s hinv
  rw [h] at hu
  cases hu
  exact huinv

/-- So does a command. -/
theorem exec_keeps_boundaryInv {i : Instr} (hinv : BoundaryInv s) (h : exec i s = .next t) : BoundaryInv t := by
  have ⟨_, hemu, _⟩ := hinv
  obtain ⟨u, hu, he⟩ := exec_keeps_emuInv i hemu
  have hframe := exec_emu_only h
  rw [h] at hu
  cases hu
  exact boundaryInv_of_emu_only hinv hframe he

/-- A run that consumes `n` ticks and restarts no counter moves the counter on `n` times, and keeps the invariant and
the parameters. -/
theorem counterRun_pm25 {n : Nat} (hrun : CounterRun n s t) (hinv : BoundaryInv s) :
    BoundaryInv t ∧ t.cfg = s.cfg ∧ t.emu.pm25 = (tickCounter s.cfg)^[n] s.emu.pm25 := by
  induction hrun with
  | start s => exact ⟨hinv, rfl, rfl⟩
  | tick run hc hs ih =>
    obtain ⟨htinv, hcfg, hpm⟩ := ih hinv
    refine ⟨step_keeps_boundaryInv htinv hs, (parametersNeverChange _ _ hs).trans hcfg, ?_⟩
    rw [step_pm25_of_consumesTick hc hs, hcfg, hpm, Function.iterate_succ_apply']
  | other run hc hr hs ih =>
    obtain ⟨htinv, hcfg, hpm⟩ := ih hinv
    exact ⟨step_keeps_boundaryInv htinv hs, (parametersNeverChange _ _ hs).trans hcfg,
      (step_pm25 htinv hc hr hs).trans hpm⟩

/-- `READ_RAW_MYSTERY` leaves a tick pending, set before or not, and the counter and the parameters as they were
(R136). -/
theorem execReadRawMystery_next (h : exec .readRawMystery s = .next t) :
    t.emu.tickPending = true ∧ t.emu.pm25 = s.emu.pm25 ∧ t.cfg = s.cfg := by
  obtain ⟨-, hresp, -, htick, -⟩ := exec_next h
  exact ⟨htick, exec_pm25 h (by simp), hresp.cfg⟩

/-- Settles O22: neither command nor the run between them moves the counter, so the one pending tick moves it on from
where it was at the first command (R271). -/
theorem tickSlotOverrun : Obligations.TickSlotOverrun := by
  intro s t u v hinv hfirst hrun hsecond
  obtain ⟨-, htpm, htcfg⟩ := execReadRawMystery_next hfirst
  obtain ⟨-, hucfg, hupm⟩ := counterRun_pm25 hrun (exec_keeps_boundaryInv hinv hfirst)
  obtain ⟨hvtick, hvpm, hvcfg⟩ := execReadRawMystery_next hsecond
  have hturn := tickTurn_pending hvtick
  have hcleared : (tickTurn v).emu.tickPending = false := by rw [hturn, setEmu_emu]
  refine ⟨hvtick, hcleared, ?_, tickTurn_none hcleared⟩
  calc (tickTurn v).emu.pm25
    _ = tickCounter v.cfg v.emu.pm25 := by rw [hturn, setEmu_emu]
    _ = tickCounter s.cfg s.emu.pm25 := by
      rw [hvcfg, hucfg, htcfg, hvpm, hupm, Function.iterate_zero_apply, htpm]

end Sys2Proof.Laws
end

