-- ==== Sys2Proof/Proofs/Transactions.lean ====
section
/-! Single transactions on the bus: one to another address (R68), a read after a turn of `EMU.TICK` (R72, R274), and
the logger's command write where the transport completes it (R191). -/

namespace Sys2Proof.Laws

open Sys2Proof.Machine Sys2Proof.Safety

variable {s t : State}

/-! ### Bus addresses (R68) -/

theorem addressesBlock_literal_of_ne {p : Params} {a : BusAddress} (h : a ≠ p.i2cAddr) :
    addressesBlock p (.literal a) = false :=
  beq_eq_false_iff_ne.mpr h

/-- Settles O5: the step of a transaction asks first whether its address is the block's own. -/
theorem otherAddressesIgnored : Obligations.OtherAddressesIgnored := by
  intro s a ha
  have hother : addressesBlock s.cfg (.literal a) = false := addressesBlock_literal_of_ne ha
  exact ⟨fun bytes hi => by rw [step_cmdWrite hi, hother]; rfl, fun k hi => by rw [step_busRead hi, hother]; rfl⟩

/-! ### A bus read beside the counter and the tick slot (R72, R274) -/

/-- A bus read neither reads nor writes `emu.pm25` and `emu.tickPending`: with other values there it does the same and
leaves them as they are. -/
theorem busRead_setCounter {k : Nat} (x : Word) (p : Bool) (h : busRead k s = .next t) :
    busRead k (setEmu { s.emu with pm25 := x, tickPending := p } s) =
      .next (setEmu { t.emu with pm25 := x, tickPending := p } t) := by
  rcases busRead_cases h with ⟨hf, out, hout, rfl⟩ | ⟨hf, rfl⟩
  · rw [busRead_ready k (by exact hf)]
    exact andThen_eq_next.mpr ⟨out, hout, rfl⟩
  · exact busRead_idle k hf

/-- Settles O24: a consumed tick changes the counter and the tick slot alone, and a read sees neither. -/
theorem responseSnapshot : Obligations.ResponseSnapshot := by
  intro s t k h
  cases hp : s.emu.tickPending with
  | true => rw [tickTurn_pending hp]; exact ⟨_, busRead_setCounter _ _ h, rfl⟩
  | false => rw [tickTurn_none hp]; exact ⟨t, h, rfl⟩

/-! ### The command write (R191) -/

/-- In a request a turn of `LOG` is the reader's step (R191, R193, R194, R215). -/
theorem loggerTurn_inRequest {rd : ReaderState} (d : LogDraw) (h : InRequest s.log rd) :
    loggerTurn d s = readerStep d.target s := by
  obtain ⟨hphase, -, -⟩ := h
  rcases hphase with hph | hph | hph | hph <;> simp only [loggerTurn, hph]

theorem readerStep_write (target : BusTarget) (h : s.log.rd = .write) : readerStep target s = reqWrite target s := by
  simp only [readerStep, h]

/-- A completed write: the transaction is issued, and the reader goes to the settle delay. -/
theorem reqWrite_transport_ok (data : List Byte) (h : s.log.written.request = true) :
    reqWrite (.transport true data) s = .next (setLog { s.log with
      rd := .settle
      issued := s.log.issued ++ [.write s.cfg.i2cAddr [highByte s.log.cmd, lowByte s.log.cmd]] } s) :=
  andThen_eq_next.mpr ⟨s.log.cmd, logCmd_next.mpr ⟨h, rfl⟩, rfl⟩

/-- Settles O37: the turn is the reader's, the reader is at its command write, and the transport completes it. -/
theorem commandWriteCompletes : Obligations.CommandWriteCompletes := by
  intro s sense data hi hreq
  have ⟨_, hrd, hwritten⟩ := hreq
  have hstep := calc step s
    _ = loggerTurn ⟨sense, .transport true data⟩ (consumeInput s) := step_logger hi
    _ = readerStep (.transport true data) (consumeInput s) := loggerTurn_inRequest _ hreq
    _ = reqWrite (.transport true data) (consumeInput s) := readerStep_write _ hrd
  exact ⟨_, hstep.trans (reqWrite_transport_ok data hwritten), rfl, rfl, rfl⟩

end Sys2Proof.Laws
end

