-- ==== Sys2Proof/Proofs/Encoding.lean ====
section
/-! Writes on the wire and the commands they carry (R80, R81, R84, R86). The decoder reads two bytes through
`decodeOpcode`, whose opcode `encodeOpcode` gives back: that is one direction of the agreement of decoder and encoder;
the other is the round trip of each row. -/

namespace Sys2Proof.Laws

open Sys2Proof.Machine

/-! ### The decoder and the encoder -/

/-- A write carries a command exactly where it has two bytes, and the command is the row of their word (R62, R81). -/
theorem decode_eq_ok {bytes : List Byte} {i : Instr} :
    decode bytes = .ok i ↔ ∃ b0 b1 rest, bytes = b0 :: b1 :: rest ∧ decodeOpcode (wordOf b0 b1) = i := by
  match bytes with
  | [] => simp
  | [b] => simp
  | b0 :: b1 :: rest => simp

/-- The encoding of the command two bytes select is the two bytes (R80, R84). -/
@[simp] theorem encode_decodeOpcode_wordOf (b0 b1 : Byte) : encode (decodeOpcode (wordOf b0 b1)) = [b0, b1] := by
  simp only [encode, encodeOpcode_decodeOpcode, highByte_wordOf, lowByte_wordOf]

/-- A well-formed command's encoding, with any bytes after it, is read as the command (R80, R81, R90). -/
theorem decode_encode_append {i : Instr} (h : i.wellFormed = true) (rest : List Byte) :
    decode (encode i ++ rest) = .ok i :=
  match i with
  | .startMeasurement => EncodingRoundTrip.startMeasurement h rest
  | .readDataReady => EncodingRoundTrip.readDataReady h rest
  | .readMeasured => EncodingRoundTrip.readMeasured h rest
  | .readRaw => EncodingRoundTrip.readRaw h rest
  | .readRawMystery => EncodingRoundTrip.readRawMystery h rest
  | .unrecognized op => EncodingRoundTrip.unrecognized op h rest

/-- Settles O2: a decoded command is well-formed and encodes to the bytes it was read from, and a write led by a
well-formed command's encoding is that encoding with bytes after it. -/
theorem decodeEncodeAgree : Obligations.DecodeEncodeAgree := by
  intro bytes i
  constructor
  · intro h
    obtain ⟨b0, b1, rest, rfl, rfl⟩ := decode_eq_ok.mp h
    exact ⟨wellFormed_decodeOpcode _, (encode_decodeOpcode_wordOf b0 b1).symm⟩
  · rintro ⟨hwf, htake⟩
    have hbytes : encode i ++ bytes.drop 2 = bytes := htake ▸ List.take_append_drop 2 bytes
    exact hbytes ▸ decode_encode_append hwf (bytes.drop 2)

/-! ### The rows of the opcode table (R84) -/

theorem opcodeIsUnnamed_iff {op : Word} : opcodeIsUnnamed op = true ↔
    op ≠ 0x0021 ∧ op ≠ 0x0202 ∧ op ≠ 0x03C4 ∧ op ≠ 0x03D2 ∧ op ≠ 0x03F5 := by
  simp [opcodeIsUnnamed, namedOpcodes, opStartMeasurement, opReadDataReady, opReadMeasured, opReadRaw,
    opReadRawMystery]

theorem decode_encode {i : Instr} (h : i.wellFormed = true) : decode (encode i) = .ok i :=
  (decodeEncodeAgree (encode i) i).mpr ⟨h, rfl⟩

/-- Settles O1: each row is a well-formed command, and the bytes are its encoding. -/
theorem opcodeTableRows : Obligations.OpcodeTableRows := by
  refine ⟨decode_encode (i := .startMeasurement) rfl, decode_encode (i := .readDataReady) rfl,
    decode_encode (i := .readMeasured) rfl, decode_encode (i := .readRaw) rfl,
    decode_encode (i := .readRawMystery) rfl, fun op h0 h1 h2 h3 h4 => ?_⟩
  exact decode_encode (i := .unrecognized op) (opcodeIsUnnamed_iff.mpr ⟨h0, h1, h2, h3, h4⟩)

/-! ### The length of a write (R81) -/

/-- A write of fewer than two bytes is ignored. -/
theorem writeReceived_short {bytes : List Byte} (h : bytes.length < 2) (s : State) :
    writeReceived bytes s = .next s := by
  match bytes with
  | [] => rfl
  | [b] => rfl

/-- A longer write is the command of its first two bytes. -/
theorem writeReceived_cons_cons (b0 b1 : Byte) (rest : List Byte) (s : State) :
    writeReceived (b0 :: b1 :: rest) s = exec (decodeOpcode (wordOf b0 b1)) s := rfl

/-- The step of a write addressed to the block (R68, R81). -/
theorem step_ownWrite {s : State} {addr : BusAddr} {bytes : List Byte} (hi : nextInput s = .cmdWrite addr bytes)
    (ha : addressesBlock s.cfg addr = true) : step s = writeReceived bytes (consumeInput s) := by
  rw [step_cmdWrite hi, if_pos ha]

/-- Settles O4: the step is the write received, a short one ignored and a longer one its first two bytes' command. -/
theorem writeLengths : Obligations.WriteLengths := by
  intro s addr bytes hi ha
  rw [step_ownWrite hi ha]
  refine ⟨fun hlen => writeReceived_short hlen _, ?_⟩
  rintro b0 b1 rest rfl
  exact writeReceived_cons_cons b0 b1 rest _

end Sys2Proof.Laws
end

