-- ==== Sys2Proof/Proofs/Responses.lean ====
section
/-! The response of a command (R120, R130, R131), and its way back to the master (R83, R150): frames in place are read
as the response's bytes. -/

namespace Sys2Proof.Laws

open Sys2Proof.Machine Sys2Proof.Safety

variable {s t : State}

/-! ### Single commands -/

/-- Settles O6: `START_MEASUREMENT` is the command step whose effect is the baseline and which has no words. -/
theorem startMeasurementResult : Obligations.StartMeasurementResult := by
  refine ⟨rfl, fun s hs => ?_⟩
  obtain ⟨t, ht, hresp, hpm, htick, hev, -⟩ := exec_answers .startMeasurement hs
  exact ⟨t, ht, hresp, hpm, htick, hev⟩

/-- Settles O7: `READ_DATA_READY` is the command step whose effect is none and whose one word is the ready flag. -/
theorem readDataReadyResult : Obligations.ReadDataReadyResult := by
  refine ⟨rfl, fun s hs => ?_⟩
  obtain ⟨t, ht, hresp, hpm, htick, hev, -⟩ := exec_answers .readDataReady hs
  exact ⟨t, ht, hresp, hpm, htick, hev⟩

/-! ### Reading a response back -/

/-- Three bytes that hold values are read before the rest. -/
theorem memRead_three {m : Memory} {a n : Nat} {b0 b1 b2 : Byte} {bs : List Byte} (ha : a + 2 < bufferBytes)
    (h0 : byteAt m a = some b0) (h1 : byteAt m (a + 1) = some b1) (h2 : byteAt m (a + 2) = some b2)
    (hrest : memRead m (a + 3) n = .next bs) : memRead m a (n + 3) = .next (b0 :: b1 :: b2 :: bs) := by
  have r0 := readByte_eq_next.mpr ⟨by omega, h0⟩
  have r1 := readByte_eq_next.mpr ⟨by omega, h1⟩
  have r2 := readByte_eq_next.mpr ⟨ha, h2⟩
  simp only [memRead, r0, r1, r2, hrest, andThen_next]

/-- Where words are in place as frames from frame `i` on, a read of these frames gives the words' bytes in order
(R83). -/
theorem memRead_frames {m : Memory} (ws : List Word) (i : Nat) (hi : i + ws.length ≤ 8)
    (hframes : ∀ j w, ws[j]? = some w → FrameAt m (i + j) w) :
    memRead m (3 * i) (3 * ws.length) = .next (responseBytes ws) := by
  induction ws generalizing i with
  | nil => rfl
  | cons w ws ih =>
    simp only [List.length_cons] at hi
    obtain ⟨h0, h1, h2⟩ : FrameAt m i w := hframes 0 w rfl
    have hrest : memRead m (3 * (i + 1)) (3 * ws.length) = .next (responseBytes ws) :=
      ih (i + 1) (by omega) fun j v hj => by
        have hframe := hframes (j + 1) v hj
        rwa [← Nat.add_assoc, Nat.add_right_comm] at hframe
    exact memRead_three (by unfold bufferBytes; omega) h0 h1 h2 hrest

/-- A read of the whole response delivers the frames of its words and no byte more (R83, R150). -/
theorem deliver_responded {ws : List Word} (h : Responded s t ws) (hlen : ws.length ≤ 8) (n : Nat) :
    deliver t.emu n (3 * t.emu.txLen.toNat) = .next (responseBytes ws) := by
  have hread : memRead t.emu.tx 0 (3 * ws.length) = .next (responseBytes ws) :=
    memRead_frames ws 0 (by omega) (by simpa using h.frames)
  simp only [deliver, h.len, min_self, hread, andThen_next, Nat.sub_self, freeBytes, List.append_nil]

/-- Settles O17: the command left `ReadyToSend` and its words in place as frames; the read delivers them and leaves
`Idle`, where the next one is premature. -/
theorem responseReadBack : Obligations.ResponseReadBack := by
  intro i s t hexec hne
  obtain ⟨-, hresp, -⟩ := exec_next hexec
  have hready : t.emu.fsm = .readyToSend := by rw [hresp.fsm, if_neg hne]
  have hout := deliver_responded hresp (commandWords_length_le _ _ _) t.env.steps
  have hread := (busRead_ready (3 * t.emu.txLen.toNat) hready).trans (congrArg (andThen · _) hout)
  exact ⟨_, _, hread, rfl, rfl, rfl, busRead_idle 3 rfl, rfl⟩

end Sys2Proof.Laws
end

