-- ==== Sys2Proof/Proofs/ErrorDetection.lean ====
section
/-! Errors in a frame (R106, R108). The checksum loop is linear in the accumulator and the bytes, so whether an error is
detected depends on the flipped bits alone, and not on the word. -/

namespace Sys2Proof.Laws

open Sys2Proof.Machine

/-! ### The checksum is linear (R101) -/

theorem crcByte_xor (a b x y : Byte) : crcByte (a ^^^ b) (x ^^^ y) = crcByte a x ^^^ crcByte b y := by
  unfold crcByte
  rw [← crcBits_xor]
  congr 1
  ac_rfl

theorem highByte_xor (v d : Word) : highByte (v ^^^ d) = highByte v ^^^ highByte d := BitVec.extractLsb'_xor

theorem lowByte_xor (v d : Word) : lowByte (v ^^^ d) = lowByte v ^^^ lowByte d := BitVec.extractLsb'_xor

/-- What flipping the bits `d` of a word flips in its checksum: the loop of R101 over `d` from 0. `crc8_xor` ties it to
the model. -/
def checksumChange (d : Word) : Byte := crcBytes 0 [highByte d, lowByte d]

theorem crc8_xor (w d : Word) : crc8 (w ^^^ d) = crc8 w ^^^ checksumChange d := by
  simp only [crc8, checksumChange, crcBytes, highByte_xor, lowByte_xor]
  rw [← crcByte_xor, ← crcByte_xor, show crcInit ^^^ 0 = crcInit from BitVec.xor_zero]

/-! ### The checksum loses no change of a single byte -/

/-- An iteration of R101 loses no bit: where it shifts the top bit out, the polynomial sets bit 0. -/
theorem crcBit_eq_zero {a : Byte} : crcBit a = 0 ↔ a = 0 := by
  refine ⟨fun h => ?_, fun h => by rw [h]; rfl⟩
  unfold crcBit at h
  split at h
  · have hbit := congrArg (BitVec.getLsbD · 0) h
    simp [crcPoly] at hbit
  · next htop =>
    apply BitVec.eq_of_getElem_eq
    intro i hi
    rcases (by omega : i = 7 ∨ i + 1 < 8) with rfl | hi
    · simpa using htop
    · have hbit := congrArg (BitVec.getLsbD · (i + 1)) h
      simpa [hi] using hbit

/-- So no number of iterations does. -/
theorem crcBits_eq_zero {n : Nat} {a : Byte} : crcBits n a = 0 ↔ a = 0 := by
  induction n generalizing a with
  | zero => rfl
  | succ n ih => exact ih.trans crcBit_eq_zero

theorem crcByte_eq_zero {acc b : Byte} : crcByte acc b = 0 ↔ acc = b :=
  crcBits_eq_zero.trans BitVec.xor_eq_zero_iff

theorem checksumChange_eq_zero {d : Word} : checksumChange d = 0 ↔ crcByte 0 (highByte d) = lowByte d :=
  crcByte_eq_zero

theorem checksumChange_zero : checksumChange 0 = 0 :=
  checksumChange_eq_zero.mpr (crcByte_eq_zero.mpr rfl)

/-- Flips in one byte of a word always flip something in its checksum. -/
theorem eq_zero_of_checksumChange_eq_zero {d : Word} (hbyte : highByte d = 0 ∨ lowByte d = 0)
    (h : checksumChange d = 0) : d = 0 := by
  have hchain : crcByte 0 (highByte d) = lowByte d := checksumChange_eq_zero.mp h
  obtain ⟨hhigh, hlow⟩ : highByte d = 0 ∧ lowByte d = 0 := by
    rcases hbyte with hhigh | hlow
    · exact ⟨hhigh, hchain.symm.trans (crcByte_eq_zero.mpr hhigh.symm)⟩
    · exact ⟨(crcByte_eq_zero.mp (hchain.trans hlow)).symm, hlow⟩
  rw [← wordOf_bytes d, hhigh, hlow]
  rfl

/-! ### Flipped bits -/

/-- The decoder reports an error exactly where the third byte is not the checksum of the first two (R106). -/
theorem decodeFrame_error {b0 b1 b2 : Byte} :
    decodeFrame b0 b1 b2 = .error .checksumError ↔ b2 ≠ crc8 (wordOf b0 b1) := by
  by_cases h : b2 = crc8 (wordOf b0 b1) <;> simp [decodeFrame, h]

/-- A frame with the bits `d` of its word and `c` of its checksum flipped is detected exactly where `c` is not what `d`
flips in the checksum. -/
theorem decodeFrame_flipped (w d : Word) (c : Byte) :
    decodeFrame (highByte (w ^^^ d)) (lowByte (w ^^^ d)) (crc8 w ^^^ c) = .error .checksumError ↔
      c ≠ checksumChange d := by
  rw [decodeFrame_error, wordOf_bytes, crc8_xor, Ne, BitVec.xor_right_inj]

theorem highByte_append_lowByte (w : Word) : (highByte w ++ lowByte w : BitVec 16) = w :=
  (BitVec.extractLsb'_append_extractLsb'_eq_extractLsb' rfl).trans BitVec.extractLsb'_eq_self

/-- 24 bits to flip in a frame are 16 of its word and 8 of its checksum (R82). -/
theorem flips_append (e : BitVec 24) : (e.extractLsb' 8 16 ++ e.extractLsb' 0 8 : BitVec 24) = e :=
  (BitVec.extractLsb'_append_extractLsb'_eq_extractLsb' rfl).trans BitVec.extractLsb'_eq_self

/-- Where the bits `d` of a frame's word and `c` of its checksum are flipped, there are such bits, and they lie in one
of the frame's three bytes. -/
def FlipsOneByte (d : Word) (c : Byte) : Prop :=
  (d = 0 ∧ c ≠ 0) ∨ (d ≠ 0 ∧ c = 0 ∧ (highByte d = 0 ∨ lowByte d = 0))

/-- Flips in the checksum alone do not fit the unchanged word, and flips in one byte of the word ask for another
checksum. -/
theorem ne_checksumChange_of_flipsOneByte {d : Word} {c : Byte} (h : FlipsOneByte d c) : c ≠ checksumChange d := by
  rcases h with ⟨rfl, hc⟩ | ⟨hd, rfl, hbyte⟩
  · rwa [checksumChange_zero]
  · exact fun hzero => hd (eq_zero_of_checksumChange_eq_zero hbyte hzero.symm)

/-- One bit of the 24 lies in one byte. -/
theorem singleFlip_flipsOneByte : ∀ i < 24,
    FlipsOneByte ((1#24 <<< i).extractLsb' 8 16) ((1#24 <<< i).extractLsb' 0 8) := by
  unfold FlipsOneByte
  decide

/-- Settles O29: the flipped frame is the flipped word's bytes and the flipped checksum, and a single flip lies in one
byte. -/
theorem singleBitFlipDetected : Obligations.SingleBitFlipDetected := by
  intro w i hi
  have hne := ne_checksumChange_of_flipsOneByte (singleFlip_flipsOneByte i hi)
  have happend := flips_append (1#24 <<< i)
  generalize 1#24 <<< i = e at hne happend ⊢
  refine ⟨_, _, _, ?_, (decodeFrame_flipped w (e.extractLsb' 8 16) (e.extractLsb' 0 8)).mpr hne⟩
  rw [highByte_append_lowByte, ← BitVec.xor_append, happend]

end Sys2Proof.Laws
end

