-- ==== Sys2Proof/Proofs/FrameCodec.lean ====
section
/-! The checksum and the frames it accepts (R101 to R108). R101's loop over one byte is a bijection, so for each first
byte of a word every checksum comes from exactly one second byte. -/

namespace Sys2Proof.Laws

open Sys2Proof.Machine

/-! ### Frames -/

/-- The checksum is R101's loop over the first byte and then over the second. -/
theorem crc8_eq_crcByte_crcByte (w : Word) : crc8 w = crcByte (crcByte crcInit (highByte w)) (lowByte w) := rfl

theorem frameBytes_wordOf (b0 b1 : Byte) : frameBytes (wordOf b0 b1) = [b0, b1, crc8 (wordOf b0 b1)] := by
  simp only [frameBytes, highByte_wordOf, lowByte_wordOf]

/-- The decoder accepts exactly what the encoder makes (R104, R106). -/
theorem decodeFrame_ok_iff_frameBytes {b0 b1 b2 : Byte} {w : Word} :
    decodeFrame b0 b1 b2 = .ok w ↔ frameBytes w = [b0, b1, b2] := by
  rw [decodeFrame_ok]
  constructor
  · rintro ⟨rfl, rfl⟩
    exact frameBytes_wordOf b0 b1
  · intro h
    obtain ⟨rfl, rfl, rfl⟩ : highByte w = b0 ∧ lowByte w = b1 ∧ crc8 w = b2 := by simpa [frameBytes] using h
    rw [wordOf_bytes]
    exact ⟨rfl, rfl⟩

/-! ### The loop over one byte is a bijection -/

/-- The iterations of R101 are linear and take only 0 to 0. -/
theorem crcBits_injective (n : Nat) : Function.Injective (crcBits n) := by
  intro a b h
  have hxor : crcBits n (a ^^^ b) = 0 := by
    rw [crcBits_xor, h]
    exact BitVec.xor_self
  exact BitVec.xor_eq_zero_iff.mp (crcBits_eq_zero.mp hxor)

theorem crcByte_injective (acc : Byte) : Function.Injective (crcByte acc) :=
  fun _ _ h => (BitVec.xor_right_inj acc).mp (crcBits_injective 8 h)

theorem crcByte_surjective (acc : Byte) : Function.Surjective (crcByte acc) :=
  Finite.surjective_of_injective (crcByte_injective acc)

/-- A word is determined by its first byte and its checksum. -/
theorem eq_of_highByte_eq_of_crc8_eq {v w : Word} (hhigh : highByte v = highByte w) (hcrc : crc8 v = crc8 w) :
    v = w := by
  have hlow : lowByte v = lowByte w := by
    rw [crc8_eq_crcByte_crcByte, crc8_eq_crcByte_crcByte, hhigh] at hcrc
    exact crcByte_injective _ hcrc
  rw [← wordOf_bytes v, ← wordOf_bytes w, hhigh, hlow]

/-- Every first byte occurs with every checksum. -/
theorem exists_highByte_eq_crc8_eq (b c : Byte) : ∃ w, highByte w = b ∧ crc8 w = c := by
  obtain ⟨low, hlow⟩ := crcByte_surjective (crcByte crcInit b) c
  refine ⟨wordOf b low, highByte_wordOf b low, ?_⟩
  rwa [crc8_eq_crcByte_crcByte, highByte_wordOf, lowByte_wordOf]

/-! ### The laws of the codec (R103, R108) -/

/-- Settles O30: the last byte takes the loop to 0 exactly where it is the accumulator it meets, the checksum. -/
theorem wholeFrameResidue : Obligations.WholeFrameResidue := by
  intro w c
  have hloop : crcBytes 0xFF [highByte w, lowByte w, c] = crcByte (crc8 w) c := rfl
  rw [hloop, crcByte_eq_zero, eq_comm]

/-- Settles O31: taking the first byte is a bijection from the words with checksum `c` to the 256 bytes. -/
theorem checksumBalance : Obligations.ChecksumBalance := by
  intro c
  have hcard : (Finset.univ : Finset (Fin (2 ^ 8))).card = 256 := Finset.card_fin _
  rw [← hcard]
  refine Finset.card_bij (fun n _ => (highByte (BitVec.ofFin n)).toFin) (fun _ _ => Finset.mem_univ _) ?inj ?surj
  case inj =>
    intro m hm n hn hhigh
    have hcrc : crc8 (BitVec.ofFin m) = crc8 (BitVec.ofFin n) :=
      (Finset.mem_filter.mp hm).2.trans (Finset.mem_filter.mp hn).2.symm
    exact congrArg BitVec.toFin (eq_of_highByte_eq_of_crc8_eq (BitVec.toFin_inj.mp hhigh) hcrc)
  case surj =>
    intro b _
    obtain ⟨w, hhigh, hcrc⟩ := exists_highByte_eq_crc8_eq (BitVec.ofFin b) c
    exact ⟨w.toFin, Finset.mem_filter.mpr ⟨Finset.mem_univ _, hcrc⟩, congrArg BitVec.toFin hhigh⟩

/-- A checksum evaluated through the accumulator between the two bytes. -/
theorem crc8_eq_of_acc {w : Word} (acc : Byte) {c : Byte} (hhigh : crcByte crcInit (highByte w) = acc)
    (hlow : crcByte acc (lowByte w) = c) : crc8 w = c := by
  rw [crc8_eq_crcByte_crcByte, hhigh, hlow]

/-- Settles O27, by the accumulators after the first byte, as R103 traces them. -/
theorem checksumExamples : Obligations.ChecksumExamples := by
  refine ⟨?_, ?_, ?_, ?_⟩
  · exact crc8_eq_of_acc 0xAC (by decide) (by decide)
  · exact crc8_eq_of_acc 0x00 (by decide) (by decide)
  · exact crc8_eq_of_acc 0x00 (by decide) (by decide)
  · exact crc8_eq_of_acc 0x0C (by decide) (by decide)

/-- Settles O28: both directions of `decodeFrame_ok_iff_frameBytes`, a word's frame being three bytes by definition. -/
theorem frameRoundTrip : Obligations.FrameRoundTrip :=
  ⟨fun _ => ⟨_, _, _, rfl, decodeFrame_ok_iff_frameBytes.mpr rfl⟩,
    fun _ _ _ _ => decodeFrame_ok_iff_frameBytes.mp⟩

end Sys2Proof.Laws
end

