-- ==== Sys2Proof/Proofs/CommandResults.lean ====
section
/-! The commands one by one (R84, R120, R134 to R139), and what they do not depend on: the response buffered before
them (R121). -/

namespace Sys2Proof.Laws

open Sys2Proof.Machine Sys2Proof.Safety

variable {s t : State}

/-! ### Single commands -/

/-- A write whose bytes are a command runs it (R120). -/
theorem writeReceived_of_decode {bytes : List Byte} {i : Instr} (h : decode bytes = .ok i) (s : State) :
    writeReceived bytes s = exec i s := by
  simp only [writeReceived, h]

/-- Settles O3: the step of a write to the block is the write received, which is the command it carries. -/
theorem stepRunsDecodedCommand : Obligations.StepRunsDecodedCommand := by
  intro s addr bytes i hi ha hd
  rw [step_ownWrite hi ha, writeReceived_of_decode hd]

/-- Settles O9: `READ_RAW` is the command step whose effect is none and whose words are the raw record's. -/
theorem readRawResult : Obligations.ReadRawResult := by
  refine ⟨decode_encode (i := .readRaw) rfl, fun s hs => ?_⟩
  obtain ⟨t, ht, hresp, hpm, htick, hev, -⟩ := exec_answers .readRaw hs
  exact ⟨t, ht, hresp, hpm, htick, hev⟩

/-- Settles O10: `READ_RAW_MYSTERY` is the command step whose effect is the tick flag and whose words are the
raw-mystery record's. -/
theorem readRawMysteryResult : Obligations.ReadRawMysteryResult := by
  refine ⟨decode_encode (i := .readRawMystery) rfl, fun s hs => ?_⟩
  obtain ⟨t, ht, hresp, hpm, htick, hev, -⟩ := exec_answers .readRawMystery hs
  exact ⟨t, ht, hresp, hpm, htick, hev⟩

/-- Settles O11: the fallback row with an unnamed opcode is a well-formed command, whose effect is its event and which
has no words. -/
theorem unrecognizedResult : Obligations.UnrecognizedResult := by
  refine ⟨fun op hop => decode_encode (i := .unrecognized op) hop, fun op s _ hs => ?_⟩
  obtain ⟨t, ht, hresp, hpm, htick, hev, -⟩ := exec_answers (.unrecognized op) hs
  exact ⟨t, ht, hresp, hpm, htick, hev, rfl⟩

/-! ### The opcode table (R139) -/

/-- The row of a well-formed command's opcode is the command (R84, R86). -/
theorem decodeOpcode_encodeOpcode {i : Instr} (h : i.wellFormed = true) : decodeOpcode (encodeOpcode i) = i := by
  have hd := decode_encode h
  rwa [encode, decode_cons_cons, wordOf_bytes, Except.ok.injEq] at hd

/-- An opcode selects the fallback row exactly where it is unnamed (R84, R138). -/
theorem decodeOpcode_eq_unrecognized {op op' : Word} :
    decodeOpcode op = .unrecognized op' ↔ op = op' ∧ opcodeIsUnnamed op' = true := by
  constructor
  · intro h
    have hop : op = op' := (encodeOpcode_decodeOpcode op).symm.trans (congrArg encodeOpcode h)
    exact ⟨hop, by simpa [h, Instr.wellFormed] using wellFormed_decodeOpcode op⟩
  · rintro ⟨rfl, hop⟩
    exact decodeOpcode_encodeOpcode (i := .unrecognized op) hop

/-- Only the fallback row raises an event (R138). -/
theorem commandEffect_events {i : Instr} (h : ∀ op, i ≠ .unrecognized op) :
    (commandEffect i s).emu.events = s.emu.events := by
  cases i with
  | unrecognized op => exact absurd rfl (h op)
  | _ => rfl

/-- The length register after a command, as R85's word count. -/
theorem txLen_of_responded {ws : List Word} (h : Responded s t ws) (hlen : ws.length ≤ 8) :
    t.emu.txLen = BitVec.ofNat 4 ws.length :=
  BitVec.eq_of_toNat_eq (h.len.trans (txLen_toNat hlen).symm)

/-- Settles O13: the word count is the number of the row's words, and the event is the fallback row's effect. -/
theorem dispatchWordCounts : Obligations.DispatchWordCounts := by
  intro op s hs
  obtain ⟨t, ht, hresp, -, -, hev, -⟩ := exec_answers (decodeOpcode op) hs
  have hcount := txLen_of_responded hresp (commandWords_length_le _ _ _)
  refine ⟨t, ht, ?_, ?_, ?_, ?_, ?_, fun hop => ?named, fun hop => ?unnamed⟩
  case named =>
    refine hev.trans (commandEffect_events fun op' h => ?_)
    obtain ⟨rfl, hop'⟩ := decodeOpcode_eq_unrecognized.mp h
    exact Bool.false_ne_true (hop.symm.trans hop')
  case unnamed =>
    rw [decodeOpcode_eq_unrecognized.mpr ⟨rfl, hop⟩] at hcount hev
    exact ⟨hcount, hev⟩
  all_goals rintro rfl; exact hcount

/-! ### The response before a command (R121) -/

/-- Where two buffers hold the same words as frames from frame 0 on, they agree in the bytes of these frames. -/
theorem byteAt_eq_of_frames {m m' : Memory} {ws : List Word} (hm : ∀ i w, ws[i]? = some w → FrameAt m i w)
    (hm' : ∀ i w, ws[i]? = some w → FrameAt m' i w) {a : Nat} (ha : a < 3 * ws.length) :
    byteAt m' a = byteAt m a := by
  have hw : ws[a / 3]? = some ws[a / 3] := List.getElem?_eq_getElem (by omega)
  obtain ⟨h0, h1, h2⟩ := hm _ _ hw
  obtain ⟨h0', h1', h2'⟩ := hm' _ _ hw
  obtain h | h | h : a = 3 * (a / 3) ∨ a = 3 * (a / 3) + 1 ∨ a = 3 * (a / 3) + 2 := by omega
  · rw [h, h0', h0]
  · rw [h, h1', h1]
  · rw [h, h2', h2]

/-- A command's begin overwrites the length and `emu.fsm` it finds, so of another response before it only the buffer
is left (R120, R121). -/
theorem beginCommand_setResponse {fsm : EmuFsm} (tx : Memory) (len : BitVec 4) (hs : s.emu.fsm ≠ .unused)
    (hf : fsm ≠ .unused) : ∃ b, beginCommand s = .next b ∧
      beginCommand (setEmu { s.emu with fsm := fsm, tx := tx, txLen := len } s) =
        .next (setEmu { b.emu with tx := tx } b) :=
  ⟨_, beginCommand_next hs, beginCommand_next hf⟩

/-- A command's effect neither reads nor writes the buffer. -/
theorem commandEffect_setTx (i : Instr) (s : State) (tx : Memory) :
    commandEffect i (setEmu { s.emu with tx := tx } s) =
      setEmu { (commandEffect i s).emu with tx := tx } (commandEffect i s) := by
  cases i <;> rfl

/-- The same response put into another buffer: the two states agree in all but the buffer, and in the response's
bytes of it. -/
theorem respond_setTx {ws : List Word} (h : ws.length ≤ 8) (s : State) (tx : Memory) :
    ∃ t u, respond ws s = .next t ∧ respond ws (setEmu { s.emu with tx := tx } s) = .next u ∧
      u = setEmu { t.emu with tx := u.emu.tx } t ∧
      ∀ a, a < 3 * t.emu.txLen.toNat → byteAt u.emu.tx a = byteAt t.emu.tx a := by
  obtain ⟨m, ht, hm, -⟩ := respond_spec ws s h
  obtain ⟨m', hu, hm', -⟩ := respond_spec ws (setEmu { s.emu with tx := tx } s) h
  refine ⟨_, _, ht, hu, rfl, fun a ha => byteAt_eq_of_frames hm hm' ?_⟩
  rwa [setEmu_emu, txLen_toNat h] at ha

/-- Settles O14: the begin overwrites the old length and `emu.fsm`, and neither the effect nor the words read the
buffer. -/
theorem lastCommandWins : Obligations.LastCommandWins := by
  intro i s fsm tx len hs hf
  obtain ⟨b, hb, hb'⟩ := beginCommand_setResponse tx len hs hf
  rw [exec_eq, exec_eq, hb, hb', andThen_next, andThen_next, commandEffect_setTx]
  exact respond_setTx (commandWords_length_le b.cfg b.emu.pm25 i) (commandEffect i b) tx

end Sys2Proof.Laws
end

