-- ==== Sys2Proof/Proofs/CounterCeiling.lean ====
section
/-! The counter over one step from any state (R27, R130, R155, R159): a step moves it on by the tick rule, sets the
baseline or leaves it, and under an admissible configuration none of these passes the ceiling. -/

namespace Sys2Proof.Laws

open Sys2Proof.Machine Sys2Proof.Safety

variable {s t : State}

/-! ### What a step does to the counter -/

/-- The counter of `t` is that of `s`, or the baseline. `exec_keepsOrRestarts` and the lemmas after it tie it to the
model. -/
def KeepsOrRestarts (s t : State) : Prop := t.emu.pm25 = s.emu.pm25 ∨ t.emu.pm25 = s.cfg.pm25Baseline

/-- A command leaves the counter or sets the baseline (R130). -/
theorem exec_keepsOrRestarts {i : Instr} (h : exec i s = .next t) : KeepsOrRestarts s t := by
  by_cases hi : i = .startMeasurement
  · subst hi
    obtain ⟨-, -, hpm, -⟩ := exec_next h
    exact .inr hpm
  · exact .inl (exec_pm25 h hi)

theorem writeReceived_keepsOrRestarts {bytes : List Byte} (h : writeReceived bytes s = .next t) :
    KeepsOrRestarts s t := by
  unfold writeReceived at h
  split at h
  · exact exec_keepsOrRestarts h
  · cases h; exact .inl rfl

/-- So does a turn of `LOG`: of its transactions only a write to an emulator target can restart the counter (R216). -/
theorem loggerTurn_keepsOrRestarts {d : LogDraw} (h : loggerTurn d s = .next t) : KeepsOrRestarts s t := by
  rcases loggerTurn_effect h with hframe | ⟨-, tx, -, u, hu, hw | ⟨k, hr⟩⟩
  · exact .inl (by rw [hframe, setLog_emu])
  · have hmove : KeepsOrRestarts s u := writeReceived_keepsOrRestarts (s := issue tx s) hw
    rwa [KeepsOrRestarts, ← hu] at hmove
  · exact .inl (by rw [hu, busRead_pm25 hr, issue_emu])

/-- A turn of `EMU.TICK` leaves the counter or moves it on once (R155). -/
theorem tickTurn_pm25 (s : State) :
    (tickTurn s).emu.pm25 = s.emu.pm25 ∨ (tickTurn s).emu.pm25 = tickCounter s.cfg s.emu.pm25 := by
  cases hp : s.emu.tickPending with
  | true => rw [tickTurn_pending hp]; exact .inr rfl
  | false => rw [tickTurn_none hp]; exact .inl rfl

/-- Everything a step but the emulator's reset does to the counter (R27, R130, R155). -/
theorem step_pm25_cases (hr : nextInput s ≠ .resetEmu) (h : step s = .next t) :
    KeepsOrRestarts s t ∨ t.emu.pm25 = tickCounter s.cfg s.emu.pm25 := by
  cases hi : nextInput s with
  | cmdWrite addr bytes =>
    rw [step_cmdWrite hi] at h
    split at h
    · exact .inl (writeReceived_keepsOrRestarts (s := consumeInput s) h)
    · cases h; exact .inl (.inl rfl)
  | busRead addr k =>
    rw [step_busRead hi] at h
    split at h
    · exact .inl (.inl (busRead_pm25 (s := consumeInput s) h))
    · cases h; exact .inl (.inl rfl)
  | tick =>
    rw [step_tick hi] at h
    cases h
    exact (tickTurn_pm25 (consumeInput s)).imp_left .inl
  | logger d =>
    rw [step_logger hi] at h
    exact .inl (loggerTurn_keepsOrRestarts (s := consumeInput s) h)
  | resetEmu => exact absurd hi hr
  | resetLog =>
    rw [step_resetLog hi] at h
    cases h; exact .inl (.inl rfl)

/-! ### The ceiling (R155, R159) -/

theorem baseline_le_ceiling {p : Params} (h : p.admissible = true) : p.pm25Baseline.toNat ≤ p.pm25Ceiling.toNat := by
  rw [Params.admissible, Bool.and_eq_true, decide_eq_true_eq] at h
  exact h.1

/-- A tick from any counter ends at or below the ceiling: a sum above it gives the baseline. -/
theorem tickCounter_le_ceiling {p : Params} (h : p.admissible = true) (x : Word) :
    (tickCounter p x).toNat ≤ p.pm25Ceiling.toNat := by
  simp only [tickCounter]
  split
  · exact baseline_le_ceiling h
  · rename_i hle
    bv_omega

/-- Settles O25: the counter after the step is the one before it, the baseline or a tick's, each at or below the
ceiling. -/
theorem counterStaysWithinCeiling : Obligations.CounterStaysWithinCeiling := by
  intro s t hadm hle hr h
  rcases step_pm25_cases hr h with (hpm | hpm) | hpm
  · rwa [hpm]
  · rw [hpm]; exact baseline_le_ceiling hadm
  · rw [hpm]; exact tickCounter_le_ceiling hadm s.emu.pm25

end Sys2Proof.Laws
end

