-- ==== Sys2Proof/Proofs/CounterLaw.lean ====
section
/-! The tick/counter law (R155, R157, R158): what one turn of `EMU.TICK` does to the counter, said over `Nat`, and from
it the counter after any number of ticks from the baseline. -/

namespace Sys2Proof.Laws

open Sys2Proof.Machine Sys2Proof.Safety

variable {s t : State} {p : Params}

/-! ### One turn of `EMU.TICK` (R155, R158) -/

/-- The wrap rule over `Nat`: the 17-bit sum of two words never wraps (R110, R155). -/
theorem tickCounter_toNat (p : Params) (x : Word) : (tickCounter p x).toNat =
    if p.pm25Ceiling.toNat < x.toNat + p.pm25Step.toNat then p.pm25Baseline.toNat
      else x.toNat + p.pm25Step.toNat := by
  have hsum : (x.setWidth 17 + p.pm25Step.setWidth 17).toNat = x.toNat + p.pm25Step.toNat := by bv_omega
  have hceil : (p.pm25Ceiling.setWidth 17).toNat = p.pm25Ceiling.toNat := by bv_omega
  simp only [tickCounter, BitVec.lt_def, hsum, hceil]
  split
  · rfl
  · rw [BitVec.toNat_setWidth, hsum]
    omega

/-- The step that consumes a tick writes the counter and the flag alone (R155, R158). -/
theorem step_tick_pending (hi : nextInput s = .tick) (hp : s.emu.tickPending = true) :
    step s = .next (setEmu { s.emu with pm25 := tickCounter s.cfg s.emu.pm25, tickPending := false }
      (consumeInput s)) := by
  rw [step_tick hi, tickTurn_pending (s := consumeInput s) hp, consumeInput_emu, consumeInput_cfg]

/-- Settles O19: the step's one write is the counter, by the wrap rule, and the flag. -/
theorem tickConsumption : Obligations.TickConsumption := by
  intro s hi hp
  exact ⟨_, step_tick_pending hi hp, tickCounter_toNat s.cfg s.emu.pm25, rfl, rfl, rfl⟩

/-- Settles O20: the turn finds no tick, so the step only takes its input. -/
theorem tickTurnWithoutTick : Obligations.TickTurnWithoutTick := by
  intro s hi hp
  rw [step_tick hi, tickTurn_none (s := consumeInput s) hp]

/-! ### Many ticks from the baseline (R157) -/

/-- Between the baseline and the ceiling there is room for one step more exactly where fewer than `K` steps were
taken. -/
theorem tickCounter_room_iff {r : Nat} (hadm : p.admissible = true) (hstep : 0 < p.pm25Step.toNat) :
    p.pm25Baseline.toNat + r * p.pm25Step.toNat + p.pm25Step.toNat ≤ p.pm25Ceiling.toNat ↔
      r < (p.pm25Ceiling.toNat - p.pm25Baseline.toNat) / p.pm25Step.toNat := by
  have hle := baseline_le_ceiling hadm
  rw [← Nat.succ_le_iff, Nat.le_div_iff_mul_le hstep, Nat.succ_mul]
  omega

/-- The successor of a residue is the next residue, or 0 after the last one. -/
theorem succ_mod_succ (n k : Nat) : (n + 1) % (k + 1) = if n % (k + 1) < k then n % (k + 1) + 1 else 0 := by
  have hle : n % (k + 1) < k + 1 := Nat.mod_lt n k.succ_pos
  rw [← Nat.mod_add_mod]
  split
  · exact Nat.mod_eq_of_lt (by omega)
  · rw [show n % (k + 1) = k by omega, Nat.mod_self]

/-- With a positive step the ticks go round the `K + 1` values from the baseline up to the ceiling. -/
theorem tickCounter_iterate_toNat (hadm : p.admissible = true) (hstep : 0 < p.pm25Step.toNat) (n : Nat) :
    ((tickCounter p)^[n] p.pm25Baseline).toNat = p.pm25Baseline.toNat +
      n % ((p.pm25Ceiling.toNat - p.pm25Baseline.toNat) / p.pm25Step.toNat + 1) * p.pm25Step.toNat := by
  induction n with
  | zero => simp
  | succ n ih =>
    rw [Function.iterate_succ_apply', tickCounter_toNat, ih, succ_mod_succ]
    simp only [← tickCounter_room_iff hadm hstep]
    split
    · rw [if_neg (by omega), Nat.zero_mul, Nat.add_zero]
    · rw [if_pos (by omega), Nat.succ_mul, Nat.add_assoc]

/-- With a step of 0 a tick leaves the baseline where it is. -/
theorem tickCounter_baseline_of_step_zero (hstep : p.pm25Step.toNat = 0) :
    tickCounter p p.pm25Baseline = p.pm25Baseline := by
  apply BitVec.eq_of_toNat_eq
  rw [tickCounter_toNat, hstep, Nat.add_zero, ite_self]

/-- Settles O21: a run with `n` ticks is `n` times the wrap rule from the baseline, whatever else happens in it. -/
theorem tickCounterLaw : Obligations.TickCounterLaw := by
  intro n s t hinv hbase hrun
  have ⟨hadm, _, _⟩ := hinv
  obtain ⟨-, -, hpm⟩ := counterRun_pm25 hrun hinv
  rw [hpm, hbase]
  exact ⟨fun hstep => tickCounter_iterate_toNat hadm hstep n,
    fun hstep => Function.iterate_fixed (tickCounter_baseline_of_step_zero hstep) n⟩

end Sys2Proof.Laws
end

