-- ==== Sys2Proof/Proofs/FsmTransitions.lean ====
section
/-! `emu.fsm` over the emulator's events (R150 to R154): what a bus read does in each of its two states, and the
transition table row by row. -/

namespace Sys2Proof.Laws

open Sys2Proof.Machine Sys2Proof.Safety

variable {s t : State}

/-! ### Bus reads (R150 to R152) -/

/-- Settles O15: the frames of the invariant are there to be delivered, and the read writes what it delivers, the
length and `emu.fsm`. -/
theorem busReadDelivers : Obligations.BusReadDelivers := by
  rintro s k ⟨-, hlen, -, hvalid⟩ hready
  obtain ⟨out, hout⟩ := deliver_answers s.env.steps k hlen hvalid
  obtain ⟨hk, hbytes⟩ := deliver_next hout
  exact ⟨_, (busRead_ready k hready).trans (congrArg (andThen · _) hout), hk, hbytes, rfl⟩

/-- Settles O16: in `Idle` the read writes its draws and its event. -/
theorem prematureReadReported : Obligations.PrematureReadReported := by
  intro s k hidle
  exact ⟨_, busRead_idle k hidle, freeBytes_length _ _ _, rfl⟩

/-- Every read leads to `Idle`, and only one that found `Idle` raises its event (R151, R152). -/
theorem busRead_fsm_events {k : Nat} (h : busRead k s = .next t) : t.emu.fsm = .idle ∧
    t.emu.events = if s.emu.fsm = .idle then s.emu.events ++ [.prematureRead k] else s.emu.events := by
  rcases busRead_cases h with ⟨hready, out, -, rfl⟩ | ⟨hidle, rfl⟩
  · rw [if_neg (by simp [hready])]
    exact ⟨rfl, rfl⟩
  · rw [if_pos hidle]
    exact ⟨hidle, rfl⟩

/-! ### The other rows of the table (R154) -/

theorem tickTurn_fsm (s : State) : (tickTurn s).emu.fsm = s.emu.fsm := by
  cases hp : s.emu.tickPending with
  | true => rw [tickTurn_pending hp]; rfl
  | false => rw [tickTurn_none hp]

/-- The step of a read addressed to the block (R68, R150). -/
theorem step_ownRead {addr : BusAddr} {k : Nat} (hi : nextInput s = .busRead addr k)
    (ha : addressesBlock s.cfg addr = true) : step s = busRead k (consumeInput s) := by
  rw [step_busRead hi, if_pos ha]

/-- A write of fewer than two bytes, to the block or to another address, is ignored (R68, R81). -/
theorem step_shortWrite {addr : BusAddr} {bytes : List Byte} (hi : nextInput s = .cmdWrite addr bytes)
    (hlen : bytes.length < 2) : step s = .next (consumeInput s) := by
  rw [step_cmdWrite hi, writeReceived_short hlen, ite_self]

/-- Settles O18: each row is the step of its input; a command and a read answer from the invariant. -/
theorem fsmTransitions : Obligations.FsmTransitions := by
  intro s hinv
  refine ⟨fun addr b0 b1 rest hi ha => ?command, fun addr bytes hi hlen => ?short, fun addr k hi ha => ?read,
    fun hi => ?tick⟩
  case command =>
    obtain ⟨t, ht, hresp, -⟩ := exec_answers (s := consumeInput s) (decodeOpcode (wordOf b0 b1)) (fsm_ne_unused hinv)
    rw [step_ownWrite hi ha, writeReceived_cons_cons]
    exact ⟨t, ht, hresp.fsm⟩
  case short => exact ⟨_, step_shortWrite hi hlen, rfl⟩
  case read =>
    obtain ⟨t, ht, -⟩ := busRead_keeps_emuInv (s := consumeInput s) k hinv
    rw [step_ownRead hi ha]
    exact ⟨t, ht, busRead_fsm_events (s := consumeInput s) ht⟩
  case tick => exact ⟨_, step_tick hi, tickTurn_fsm (consumeInput s)⟩

end Sys2Proof.Laws
end

