-- ==== Sys2Proof/Proofs/TickFairness.lean ====
section
/-! A pending tick over an infinite run (R28, R155, R156): only a turn of `EMU.TICK` or the emulator's reset clears it,
and under weak fairness one of the two comes. -/

namespace Sys2Proof.Laws

open Sys2Proof.Machine Sys2Proof.Safety

variable {s t : State}

/-! ### What leaves a tick pending (R28) -/

/-- A command leaves a pending tick, `START_MEASUREMENT` too (R130, R136). -/
theorem exec_tickPending {i : Instr} (h : exec i s = .next t) (hp : s.emu.tickPending = true) :
    t.emu.tickPending = true := by
  obtain ⟨-, -, -, htick, -⟩ := exec_next h
  rw [htick]
  cases i with
  | readRawMystery => rfl
  | _ => exact hp

theorem writeReceived_tickPending {bytes : List Byte} (h : writeReceived bytes s = .next t)
    (hp : s.emu.tickPending = true) : t.emu.tickPending = true := by
  unfold writeReceived at h
  split at h
  · exact exec_tickPending h hp
  · cases h; exact hp

theorem busRead_tickPending {k : Nat} (h : busRead k s = .next t) : t.emu.tickPending = s.emu.tickPending := by
  rcases busRead_cases h with ⟨-, out, -, rfl⟩ | ⟨-, rfl⟩ <;> rfl

/-- So does a turn of `LOG`, which reaches the emulator only by a write or a read (R216). -/
theorem loggerTurn_tickPending {d : LogDraw} (h : loggerTurn d s = .next t) (hp : s.emu.tickPending = true) :
    t.emu.tickPending = true := by
  rcases loggerTurn_effect h with hframe | ⟨-, tx, -, u, hu, hw | ⟨k, hr⟩⟩
  · rw [hframe, setLog_emu, hp]
  · rw [hu]; exact writeReceived_tickPending hw hp
  · rw [hu, busRead_tickPending hr, issue_emu, hp]

/-- An input that may clear a pending tick: a turn of `EMU.TICK`, or the emulator's reset. `step_tickPending` ties it to
the model. -/
def MayClearTick (i : Input) : Prop := i = .tick ∨ i = .resetEmu

/-- The step of every other input leaves a pending tick (R28). -/
theorem step_tickPending (hi : ¬ MayClearTick (nextInput s)) (h : step s = .next t)
    (hp : s.emu.tickPending = true) : t.emu.tickPending = true := by
  cases hin : nextInput s with
  | cmdWrite addr bytes =>
    rw [step_cmdWrite hin] at h
    split at h
    · exact writeReceived_tickPending (s := consumeInput s) h hp
    · cases h; exact hp
  | busRead addr k =>
    rw [step_busRead hin] at h
    split at h
    · exact (busRead_tickPending h).trans hp
    · cases h; exact hp
  | tick => exact absurd (.inl hin) hi
  | logger d =>
    rw [step_logger hin] at h
    exact loggerTurn_tickPending (s := consumeInput s) h hp
  | resetEmu => exact absurd (.inr hin) hi
  | resetLog =>
    rw [step_resetLog hin] at h
    cases h; exact hp

/-! ### Infinite runs (R156) -/

section
variable {ins : Nat → Input} {run : Nat → State} {n m : Nat}

/-- In an infinite run a pending tick is pending up to the first input that may clear it. -/
theorem infiniteRun_tickPending (hrun : InfiniteRun ins run) (hp : (run n).emu.tickPending = true) (hnm : n ≤ m)
    (hquiet : ∀ k, n ≤ k → k < m → ¬ MayClearTick (ins k)) : (run m).emu.tickPending = true := by
  induction m, hnm using Nat.le_induction with
  | base => exact hp
  | succ m hnm ih =>
    have hm := ih fun k hnk hkm => hquiet k hnk (by omega)
    obtain ⟨script, hin, hstep⟩ := hrun m
    exact step_tickPending (hin ▸ hquiet m hnm (by omega)) hstep hm

/-- Where a run gives `EMU.TICK` its turn with a tick pending, the tick is consumed (R155). -/
theorem infiniteRun_tick (hrun : InfiniteRun ins run) (hi : ins m = .tick) (hp : (run m).emu.tickPending = true) :
    (run (m + 1)).emu.tickPending = false ∧
      (run (m + 1)).emu.pm25 = tickCounter (run m).cfg (run m).emu.pm25 := by
  obtain ⟨script, hin, hstep⟩ := hrun m
  rw [step_tick_pending (hin.trans hi) hp, Host.Outcome.next.injEq] at hstep
  rw [← hstep]
  exact ⟨rfl, rfl⟩

/-- Under weak fairness an input that may clear a pending tick comes: else the tick stays pending for ever, and the
tick step is taken (R156). -/
theorem exists_mayClearTick (hrun : InfiniteRun ins run) (hfair : WeaklyFairTick ins run)
    (hp : (run n).emu.tickPending = true) : ∃ m, n ≤ m ∧ MayClearTick (ins m) := by
  by_contra hnone
  have hquiet : ∀ k, n ≤ k → ¬ MayClearTick (ins k) := fun k hk hc => hnone ⟨k, hk, hc⟩
  obtain ⟨m, hnm, htick⟩ := hfair n fun m hnm => infiniteRun_tickPending hrun hp hnm fun k hnk _ => hquiet k hnk
  exact hquiet m hnm (.inl htick)

end

/-- Settles O26: the tick is pending up to the first input that may clear it, and there it is consumed or the emulator
is reset. -/
theorem fairTickIsConsumed : Obligations.FairTickIsConsumed := by
  classical
  intro ins run hrun hfair n hp
  have hexists := exists_mayClearTick hrun hfair hp
  obtain ⟨hnm, hclear⟩ := Nat.find_spec hexists
  have hpending : ∀ k, n ≤ k → k ≤ Nat.find hexists → (run k).emu.tickPending = true := fun k hnk hkm =>
    infiniteRun_tickPending hrun hp hnk fun j hnj hjk hc => Nat.find_min hexists (by omega) ⟨hnj, hc⟩
  refine ⟨Nat.find hexists, hnm, hpending, hclear.imp_left fun htick => ⟨htick, ?_⟩⟩
  exact infiniteRun_tick hrun htick (hpending _ hnm le_rfl)

end Sys2Proof.Laws
end

