-- ==== Sys2Proof/Proofs/Arbitration.lean ====
section
/-! The Bus Arbitration Monitor (R172, R173, R176, R203): the step that starts the wait, the step that takes a sample,
and a run of `LOG` over any samples that never fill the window. -/

namespace Sys2Proof.Laws

open Sys2Proof.Machine Sys2Proof.Safety

variable {s : State} {d : LogDraw}

/-! ### The two steps of the monitor (R172, R173, R203) -/

theorem whenIdle_of_idle (o : Result State) (h : s.log.rd = .idle) : whenIdle o s = o := if_pos h

theorem loggerTurn_cycleStart (d : LogDraw) (hph : s.log.phase = .cycleStart) (hrd : s.log.rd = .idle) :
    loggerTurn d s = cycleStart s := by
  simp only [loggerTurn, hph, whenIdle_of_idle _ hrd]

theorem loggerTurn_arbWait (d : LogDraw) (hph : s.log.phase = .arbWait) (hrd : s.log.rd = .idle) :
    loggerTurn d s = arbStep d.sense s := by
  simp only [loggerTurn, hph, whenIdle_of_idle _ hrd]

theorem cycleStart_enabled (h : s.cfg.arbEnable = true) :
    cycleStart s = .next (arbStart (setLog { s.log with phase := .arbWait } s)) := if_pos h

theorem arbStep_short (v : Bool) (h : s.log.idleCount < s.cfg.idleMin) : arbStep v s = .next (arbSample v s) :=
  if_pos h

/-- With arbitration enabled the cycle's first step enters the wait and starts its window (R172, R203). -/
theorem step_cycleStart_enabled (hi : nextInput s = .logger d) (hph : s.log.phase = .cycleStart)
    (hrd : s.log.rd = .idle) (hen : s.cfg.arbEnable = true) :
    step s = .next (arbStart (setLog { s.log with phase := .arbWait } (consumeInput s))) :=
  calc step s
    _ = loggerTurn d (consumeInput s) := step_logger hi
    _ = cycleStart (consumeInput s) := loggerTurn_cycleStart d hph hrd
    _ = _ := cycleStart_enabled hen

/-- In the wait, with the window short of full, a turn of `LOG` takes its sample (R173). -/
theorem step_sample (hi : nextInput s = .logger d) (hph : s.log.phase = .arbWait) (hrd : s.log.rd = .idle)
    (hlt : s.log.idleCount < s.cfg.idleMin) : step s = .next (arbSample d.sense (consumeInput s)) :=
  calc step s
    _ = loggerTurn d (consumeInput s) := step_logger hi
    _ = arbStep d.sense (consumeInput s) := loggerTurn_arbWait d hph hrd
    _ = _ := arbStep_short d.sense hlt

/-- Settles O32: the step writes the phase and the window's count. -/
theorem cycleStartsWithWait : Obligations.CycleStartsWithWait := by
  intro s d hi hph hrd hen
  exact ⟨_, step_cycleStart_enabled hi hph hrd hen, rfl, rfl, rfl⟩

/-- Settles O33: the step writes the window's count, by the sample's value. -/
theorem sampleUpdatesWindow : Obligations.SampleUpdatesWindow := by
  intro s d hi hph hrd hlt
  exact ⟨_, step_sample hi hph hrd hlt, rfl, rfl, rfl⟩

/-! ### A run of samples (R173, R175, R176) -/

theorem run_one {M : Host.Core} (a : M.State) : M.run 1 a = M.step a := by
  simp only [Host.Core.run]
  cases M.step a <;> rfl

/-- A run's last step, peeled off: `Core.run` itself recurses on the first one. -/
theorem run_succ_of_run_next {M : Host.Core} {n : Nat} {a b : M.State} (h : M.run n a = .next b) :
    M.run (n + 1) a = M.step b := by
  induction n generalizing a with
  | zero =>
    cases h
    exact run_one b
  | succ n ih =>
    rw [Host.Core.run] at h ⊢
    cases hstep : M.step a with
    | next c => rw [hstep] at h; exact ih h
    | fault r => rw [hstep] at h; cases h
    | refused r => rw [hstep] at h; cases h

/-- One sample more extends the high samples at the end or ends them, as R173 does with the window. -/
theorem trailingHighs_concat (samples : List Bool) (v : Bool) :
    trailingHighs (samples ++ [v]) = if v then trailingHighs samples + 1 else 0 := by
  cases v <;> simp [trailingHighs]

theorem sampleInputs_concat (samples : List Bool) (v : Bool) :
    sampleInputs (samples ++ [v]) = sampleInputs samples ++ [.logger ⟨v, .transport false []⟩] := by
  simp [sampleInputs]

/-- A run over samples that never fill the window before the last takes them all, and the logger differs in the
window's count alone. -/
theorem run_samples {samples : List Bool} {rest : List Input} (hscript : s.env.script = sampleInputs samples ++ rest)
    (hph : s.log.phase = .arbWait) (hrd : s.log.rd = .idle) (hzero : s.log.idleCount = 0)
    (hshort : ∀ k, k < samples.length → trailingHighs (samples.take k) < s.cfg.idleMin) :
    ∃ t : State, Host.Core.run Sys2Proof.core samples.length s = .next t ∧ t.env.script = rest ∧ t.cfg = s.cfg ∧
      t.log = { s.log with idleCount := trailingHighs samples } := by
  induction samples using List.reverseRecOn generalizing rest with
  | nil => exact ⟨s, rfl, hscript, rfl, by rw [show trailingHighs [] = s.log.idleCount from hzero.symm]⟩
  | append_singleton samples v ih =>
    rw [sampleInputs_concat, List.append_assoc] at hscript
    rw [List.length_append, List.length_singleton] at hshort ⊢
    have hprefix : ∀ k, k < samples.length → trailingHighs (samples.take k) < s.cfg.idleMin := by
      intro k hk
      have hlt := hshort k (by omega)
      rwa [List.take_append_of_le_length hk.le] at hlt
    have hwindow : trailingHighs samples < s.cfg.idleMin := by
      have hlt := hshort samples.length (by omega)
      rwa [List.take_left] at hlt
    obtain ⟨t, hrun, hrest, hcfg, hlog⟩ := ih hscript hprefix
    have hstep : step t = .next (arbSample v (consumeInput t)) :=
      step_sample (nextInput_script hrest) (by rw [hlog, hph]) (by rw [hlog, hrd]) (by rwa [hlog, hcfg])
    refine ⟨_, (run_succ_of_run_next hrun).trans hstep, ?script, hcfg, ?log⟩
    case script => rw [arbSample_env, consumeInput_script, hrest]; rfl
    case log => simp only [arbSample_log, consumeInput_log, hlog, trailingHighs_concat]

/-- Settles O35: the logger at the run's end is the one before it but for the window's count. -/
theorem waitHasNoBound : Obligations.WaitHasNoBound := by
  intro samples rest s hscript hph hrd hzero hshort
  obtain ⟨t, hrun, -, -, hlog⟩ := run_samples hscript hph hrd hzero hshort
  exact ⟨t, hrun, by rw [hlog, hph], by rw [hlog], by rw [hlog]⟩

end Sys2Proof.Laws
end

