-- ==== Sys2Proof/Proofs/Requests.lean ====
section
/-! How a request starts, how it fails at its command write, and the settle delay (R190, R192, R193, R197, R199, R205,
R210): the turns of `LOG` before a read. -/

namespace Sys2Proof.Laws

open Sys2Proof.Machine Sys2Proof.Safety

variable {s : State} {d : LogDraw}

/-! ### The start of a request (R190, R205) -/

theorem startRequest_tooLong (cmd : Word) {n : Nat} (s : State) (h : 8 < n) :
    startRequest cmd n s = .refused .requestTooLong := if_pos h

/-- Settles O36: the number of words is tested first, and in `RD_IDLE` the request is written. -/
theorem requestStart : Obligations.RequestStart := fun cmd _ s =>
  ⟨startRequest_tooLong cmd s, fun hn hrd => ⟨_, startRequest_next.mpr ⟨hn, hrd, rfl⟩, txLen_toNat hn, rfl⟩⟩

/-- With a full window the monitor's step is the clearance (R174). -/
theorem arbStep_full (v : Bool) (h : s.log.idleCount = s.cfg.idleMin) : arbStep v s = afterClearance s := by
  simp [arbStep, cleared, h]

theorem cycleStart_bypassed (h : s.cfg.arbEnable = false) : cycleStart s = afterClearance s := by
  simp [cycleStart, h]

/-- With arbitration bypassed the cycle's first step starts its first request (R177, R203, R205). -/
theorem step_cycleStart_bypassed (hi : nextInput s = .logger d) (hph : s.log.phase = .cycleStart)
    (hrd : s.log.rd = .idle) (hen : s.cfg.arbEnable = false) : step s = afterClearance (consumeInput s) :=
  calc step s
    _ = loggerTurn d (consumeInput s) := step_logger hi
    _ = cycleStart (consumeInput s) := loggerTurn_cycleStart d hph hrd
    _ = _ := cycleStart_bypassed hen

/-- So does the step that finds the window full (R174, R205). -/
theorem step_clearance (hi : nextInput s = .logger d) (hph : s.log.phase = .arbWait) (hrd : s.log.rd = .idle)
    (hfull : s.log.idleCount = s.cfg.idleMin) : step s = afterClearance (consumeInput s) :=
  calc step s
    _ = loggerTurn d (consumeInput s) := step_logger hi
    _ = arbStep d.sense (consumeInput s) := loggerTurn_arbWait d hph hrd
    _ = _ := arbStep_full d.sense hfull

/-- Settles O34: on both ways in the step is `afterClearance`, which writes the request of R205. -/
theorem clearanceStartsFirstRequest : Obligations.ClearanceStartsFirstRequest := by
  intro s d hi hrd hway
  have hstep : step s = afterClearance (consumeInput s) := by
    rcases hway with ⟨hph, hfull⟩ | ⟨hph, hen⟩
    · exact step_clearance hi hph hrd hfull
    · exact step_cycleStart_bypassed hi hph hrd hen
  refine ⟨_, hstep.trans (afterClearance_next.mpr ⟨hrd, rfl⟩), rfl, rfl, ?_⟩
  cases hr : s.cfg.respectReady <;> simp only [consumeInput_cfg, hr] <;> rfl

/-! ### The cycle's end (R210) -/

theorem step_cycleEnd (hi : nextInput s = .logger d) (hph : s.log.phase = .cycleEnd) (hrd : s.log.rd = .idle) :
    step s = .next (cycleEnd (consumeInput s)) := by
  rw [step_logger hi]
  simp only [loggerTurn, consumeInput_log, hph]
  exact whenIdle_of_idle _ hrd

/-- Settles O45: the step writes the phase. -/
theorem cycleEndRestarts : Obligations.CycleEndRestarts :=
  fun _ _ hi hph hrd => ⟨_, step_cycleEnd hi hph hrd, rfl, rfl, rfl⟩

/-! ### The reader's steps (R191 to R194) -/

/-- In a request the step of a turn of `LOG` is the reader's (R191, R193, R194, R215). -/
theorem step_inRequest {rd : ReaderState} (hi : nextInput s = .logger d) (hreq : InRequest s.log rd) :
    step s = readerStep d.target (consumeInput s) :=
  (step_logger hi).trans (loggerTurn_inRequest d hreq)

theorem readerStep_settle (target : BusTarget) (h : s.log.rd = .settle) : readerStep target s = reqSettle s := by
  simp only [readerStep, h]

theorem readerStep_read (target : BusTarget) (h : s.log.rd = .read) : readerStep target s = reqRead target s := by
  simp only [readerStep, h]

/-- The state a failed request leaves: its result, its event, the cycle's end (R197, R211, R234). -/
def failedRequest (f : Failure) (s : State) : State :=
  endCycle (raiseLog (failureEvent s.log.cmd s.log.rxCount f) (storeResult (.err (failureError f)) s))

/-- A failure ends the cycle in every request phase (R197, R211). -/
theorem completeRequest_failed_eq {rd : ReaderState} (f : Failure) (hreq : InRequest s.log rd) :
    completeRequest (.failed f) s = .next (failedRequest f s) := by
  obtain ⟨hphase, -, hq⟩ := hreq
  exact andThen_eq_next.mpr ⟨s.log.cmd, logCmd_next.mpr ⟨hq, rfl⟩, continueCycle_err_answers _ hphase⟩

/-- A command write that the transport does not complete is issued and fails the request (R192). -/
theorem reqWrite_transport_failed (data : List Byte) (hreq : InRequest s.log .write) :
    reqWrite (.transport false data) s = .next (failedRequest .transmit
      (issue (.write s.cfg.i2cAddr [highByte s.log.cmd, lowByte s.log.cmd]) s)) := by
  have ⟨_, _, hq⟩ := hreq
  exact andThen_eq_next.mpr ⟨s.log.cmd, logCmd_next.mpr ⟨hq, rfl⟩,
    completeRequest_failed_eq (s := issue (.write s.cfg.i2cAddr [highByte s.log.cmd, lowByte s.log.cmd]) s) _ hreq⟩

/-- Settles O38: the reader is at its command write, and the failed request writes result, event and phase. -/
theorem transmitErrorEndsCycle : Obligations.TransmitErrorEndsCycle := by
  intro s sense data hi hreq
  have ⟨_, hrd, _⟩ := hreq
  have hstep := calc step s
    _ = readerStep (.transport false data) (consumeInput s) := step_inRequest hi hreq
    _ = reqWrite (.transport false data) (consumeInput s) := readerStep_write _ hrd
  exact ⟨_, hstep.trans (reqWrite_transport_failed data hreq), rfl, rfl, rfl⟩

/-- With words asked for the read follows the settle delay (R193). -/
theorem reqSettle_words (hq : s.log.written.request = true) (hn : s.log.nwords.toNat ≠ 0) :
    reqSettle s = .next (setLog { s.log with rd := .read } s) :=
  andThen_eq_next.mpr ⟨s.log.nwords.toNat, logNwords_next.mpr ⟨hq, rfl⟩, if_neg hn⟩

/-- With none the request completes with no words (R199). -/
theorem reqSettle_noWords (hq : s.log.written.request = true) (hn : s.log.nwords.toNat = 0) :
    reqSettle s = completeRequest (.ok []) s := by
  simp only [reqSettle, logNwords_next.mpr ⟨hq, rfl⟩, andThen_next, if_pos hn]

/-- A ready check that brought no word ends the cycle (R206). -/
theorem completeRequest_ready_noWords (hph : s.log.phase = .readyCheck) :
    completeRequest (.ok []) s = .next (endCycle (storeResult (.ok []) s)) := by
  simp only [completeRequest_ok, continueCycle, storeResult_log, hph]
  rfl

theorem step_settle (hi : nextInput s = .logger d) (hreq : InRequest s.log .settle) :
    step s = reqSettle (consumeInput s) := by
  have ⟨_, hrd, _⟩ := hreq
  exact (step_inRequest hi hreq).trans (readerStep_settle _ hrd)

/-- Settles O39: the settle step asks for the number of words alone. -/
theorem settleThenRead : Obligations.SettleThenRead := by
  intro s d hi hreq
  have ⟨_, _, hq⟩ := hreq
  rw [step_settle hi hreq]
  refine ⟨fun hn => ?words, fun hn hph => ?noWords⟩
  case words =>
    have hn : s.log.nwords.toNat ≠ 0 := fun h => hn (BitVec.eq_of_toNat_eq h)
    exact ⟨_, reqSettle_words hq hn, rfl, rfl, rfl⟩
  case noWords =>
    have hn : s.log.nwords.toNat = 0 := congrArg BitVec.toNat hn
    exact ⟨_, (reqSettle_noWords (s := consumeInput s) hq hn).trans (completeRequest_ready_noWords hph), rfl, rfl, rfl⟩

end Sys2Proof.Laws
end

