-- ==== Sys2Proof/Proofs/ReceivedReads.lean ====
section
/-! A response read (R194 to R197): the bytes that come back are received, and `validate()` answers by their count and
by the first frame that fails. The two ways a read fails end the cycle. -/

namespace Sys2Proof.Laws

open Sys2Proof.Machine Sys2Proof.Safety

variable {s v : State} {target : BusTarget} {data : List Byte} {before l : Log} {n j : Nat}

/-! ### Frames among the bytes received (R106, R194) -/

/-- Bytes cut from an answer are the answer's first bytes (R194; log 11). -/
theorem received_of_take {k : Nat} (h : Received (data.take k) n before l) (hnk : n ≤ k) :
    Received data n before l := by
  obtain ⟨hcount, hbytes⟩ := h
  refine ⟨hcount, fun a => ?_⟩
  rw [hbytes a]
  split
  · rw [List.getElem?_take_of_lt (by omega)]
  · rfl

/-- The bytes counted hold values. -/
theorem received_isSome (h : Received data n before l) (hlen : n ≤ data.length) (a : Nat)
    (ha : a < l.rxCount.toNat) : (byteAt l.rx a).isSome = true := by
  obtain ⟨hcount, hbytes⟩ := h
  rw [hcount] at ha
  rw [hbytes a, if_pos ha, List.getElem?_eq_getElem (by omega), Option.isSome_some]

/-- A valid frame among the bytes received is the frame of its word in the buffer. -/
theorem frameAt_of_received {w : Word} (h : Received data n before l) (hj : 3 * j + 2 < n)
    (hf : FrameOf data j (.ok w)) : FrameAt l.rx j w := by
  obtain ⟨-, hbytes⟩ := h
  obtain ⟨b0, b1, b2, h0, h1, h2, hd⟩ := hf
  obtain ⟨rfl, rfl⟩ := decodeFrame_ok.mp hd
  refine ⟨?_, ?_, ?_⟩
  · rw [hbytes, if_pos (by omega), h0, highByte_wordOf]
  · rw [hbytes, if_pos (by omega), h1, lowByte_wordOf]
  · rw [hbytes, if_pos hj, h2]

/-- A frame that fails `decode` among the bytes received fails the checksum test in the buffer. -/
theorem frameIsValid_false_of_received {e : ProtocolError} (h : Received data n before l) (hj : 3 * j + 2 < n)
    (hf : FrameOf data j (.error e)) : frameIsValid l.rx j = false := by
  obtain ⟨-, hbytes⟩ := h
  obtain ⟨b0, b1, b2, h0, h1, h2, hd⟩ := hf
  have hcrc : b2 ≠ crc8 (wordOf b0 b1) := fun hc => by
    rw [decodeFrame_ok.mpr ⟨hc, rfl⟩] at hd
    cases hd
  have hb0 : byteAt l.rx (3 * j) = some b0 := by rw [hbytes, if_pos (by omega), h0]
  have hb1 : byteAt l.rx (3 * j + 1) = some b1 := by rw [hbytes, if_pos (by omega), h1]
  have hb2 : byteAt l.rx (3 * j + 2) = some b2 := by rw [hbytes, if_pos hj, h2]
  simp only [frameIsValid, hb0, hb1, hb2, beq_eq_false_iff_ne]
  exact hcrc

/-- The bytes of a response are the frames of its words in order (R83). -/
theorem frameOf_responseBytes {ws : List Word} {w : Word} (h : ws[j]? = some w) :
    FrameOf (responseBytes ws) j (.ok w) := by
  induction ws generalizing j with
  | nil => simp at h
  | cons u ws ih =>
    cases j with
    | zero =>
      obtain rfl : u = w := by simpa using h
      exact ⟨_, _, _, rfl, rfl, rfl, decodeFrame_ok_iff_frameBytes.mpr rfl⟩
    | succ j => exact ih (by simpa using h)

/-- A buffer holds one word as a frame. -/
theorem frameAt_unique {m : Memory} {w w' : Word} (h : FrameAt m j w) (h' : FrameAt m j w') : w = w' := by
  obtain ⟨hhigh, hlow, -⟩ := h
  obtain ⟨hhigh', hlow', -⟩ := h'
  rw [← wordOf_bytes w, ← wordOf_bytes w', Option.some.inj (hhigh.symm.trans hhigh'),
    Option.some.inj (hlow.symm.trans hlow')]

/-! ### What `validate()` answers (R195, R196) -/

theorem validate_short (hq : l.written.request = true) (h : l.rxCount.toNat < 3 * l.nwords.toNat) :
    validate l = .next (.failed .short) := by
  simp only [validate, logNwords_next.mpr ⟨hq, rfl⟩, andThen_next, if_pos h]

section
variable (hq : l.written.request = true) (hn : l.nwords.toNat ≤ 8) (hlen : 3 * l.nwords.toNat ≤ data.length)
  (hrec : Received data (3 * l.nwords.toNat) before l)
include hq hn hlen hrec

/-- Where all bytes came and every frame is valid it answers the frames' words: the loop's other answer is a frame
that fails (R195). -/
theorem validate_of_validFrames {ws : List Word} (hws : ws.length = l.nwords.toNat)
    (hframes : ∀ j w, ws[j]? = some w → FrameOf data j (.ok w)) : validate l = .next (.ok ws) := by
  obtain ⟨r, hr⟩ := validate_answers hq hn (received_isSome hrec hlen)
  have hat : ∀ (j : Nat) (hj : j < ws.length), FrameAt l.rx j ws[j] := fun j hj =>
    frameAt_of_received hrec (by omega) (hframes j _ (List.getElem?_eq_getElem hj))
  have ⟨hcount, _⟩ := hrec
  rcases validate_cases hr with ⟨-, hlt⟩ | ⟨-, us, rfl, hus, hus_at⟩ | ⟨-, j, hj, -, hbad, -⟩
  · omega
  · have hwords : us = ws := List.ext_getElem (by omega) fun j hj hj' =>
      frameAt_unique (hus_at j _ (List.getElem?_eq_getElem hj)) (hat j hj')
    rw [hr, hwords]
  · rw [frameIsValid_of_FrameAt (hat j (by omega))] at hbad
    cases hbad

/-- Where all bytes came and frame `j` is the first that fails it answers that frame's number (R195). -/
theorem validate_of_firstBadFrame {e : ProtocolError} (hj : j < l.nwords.toNat)
    (hgood : ∀ k, k < j → ∃ w, FrameOf data k (.ok w)) (hbad : FrameOf data j (.error e)) :
    validate l = .next (.failed (.checksum j)) := by
  obtain ⟨r, hr⟩ := validate_answers hq hn (received_isSome hrec hlen)
  have hinvalid : frameIsValid l.rx j = false := frameIsValid_false_of_received hrec (by omega) hbad
  have hvalid : ∀ k, k < j → frameIsValid l.rx k = true := fun k hk => by
    obtain ⟨w, hw⟩ := hgood k hk
    exact frameIsValid_of_FrameAt (frameAt_of_received hrec (by omega) hw)
  have ⟨hcount, _⟩ := hrec
  rcases validate_cases hr with ⟨-, hlt⟩ | ⟨-, us, rfl, hus, hus_at⟩ | ⟨-, i, hi, rfl, hibad, hbefore⟩
  · omega
  · rw [frameIsValid_of_FrameAt (hus_at j _ (List.getElem?_eq_getElem (by omega)))] at hinvalid
    cases hinvalid
  · rcases lt_trichotomy i j with hlt | rfl | hlt
    · rw [hvalid i hlt] at hibad
      cases hibad
    · exact hr
    · rw [hbefore j hlt] at hinvalid
      cases hinvalid

end

/-! ### The read (R194, R200, R216) -/

/-- A bus read returns as many bytes as it asks for (R151, R152). -/
theorem busRead_busOut_length {k : Nat} (h : busRead k s = .next v) : v.emu.busOut.length = k := by
  rcases busRead_cases h with ⟨-, out, hout, rfl⟩ | ⟨-, rfl⟩
  · exact (deliver_next hout).1
  · exact freeBytes_length _ _ _

/-- No answer has more bytes than the read asks for (R200). -/
theorem readAnswer_length_le {k : Nat} {bytes : List Byte} (h : readAnswer target k s = .next (bytes, v)) :
    bytes.length ≤ k := by
  cases target with
  | transport ok data => cases h; exact List.length_take_le k data
  | emulator =>
    obtain ⟨u, hu, h⟩ := andThen_eq_next.mp h
    cases h
    exact (busRead_busOut_length hu).le

/-- The logger with its read issued, and `rx` and `c` in the receive buffer and its count. -/
def withRead (s : State) (rx : Memory) (c : BitVec 5) : Log :=
  { s.log with rx := rx, rxCount := c
               issued := s.log.issued ++ [.read s.cfg.i2cAddr (3 * s.log.nwords.toNat)] }

/-- A read takes its answer: the bytes are received and validated, and the request completes; nothing else of the
logger changes before that, and of the emulator what the answer itself changed (R194). -/
theorem reqRead_eq {bytes : List Byte} (hq : s.log.written.request = true) (hn : s.log.nwords.toNat ≤ 8)
    (ha : readAnswer target (3 * s.log.nwords.toNat)
      (issue (.read s.cfg.i2cAddr (3 * s.log.nwords.toNat)) s) = .next (bytes, v)) :
    ∃ rx c, Received bytes bytes.length s.log (withRead s rx c) ∧
      reqRead target s = andThen (validate (withRead s rx c)) fun r =>
        completeRequest r (setLog (withRead s rx c) v) := by
  have hlen := readAnswer_length_le ha
  have hlog : v.log = (issue (.read s.cfg.i2cAddr (3 * s.log.nwords.toNat)) s).log :=
    congrArg (fun u => u.log) (readAnswer_emu_only ha)
  obtain ⟨rx, hrx, -⟩ := receive_spec bytes v (by omega)
  obtain ⟨hrec, -⟩ := receive_received hrx
  rw [hlog] at hrx hrec
  refine ⟨rx, BitVec.ofNat 5 bytes.length, hrec, ?_⟩
  simp only [reqRead, logNwords_next.mpr ⟨hq, rfl⟩, andThen_next, ha, hrx]
  rfl

/-- The step of a read that the transport answers (R194, R200). -/
theorem step_read_transport {sense ok : Bool}
    (hi : nextInput s = .logger { sense := sense, target := .transport ok data }) (hreq : InRequest s.log .read)
    (hn : s.log.nwords.toNat ≤ 8) :
    ∃ rx c, Received (data.take (3 * s.log.nwords.toNat)) (data.take (3 * s.log.nwords.toNat)).length s.log
        (withRead s rx c) ∧
      step s = andThen (validate (withRead s rx c)) fun r =>
        completeRequest r (setLog (withRead s rx c) (consumeInput s)) := by
  have ⟨_, hrd, hq⟩ := hreq
  have hstep := calc step s
    _ = readerStep (.transport ok data) (consumeInput s) := step_inRequest hi hreq
    _ = reqRead (.transport ok data) (consumeInput s) := readerStep_read _ hrd
  obtain ⟨rx, c, hrec, hread⟩ := reqRead_eq (s := consumeInput s) (target := .transport ok data) hq hn rfl
  exact ⟨rx, c, hrec, hstep.trans hread⟩

/-- Where `validate()` finds a failure the read's step ends the cycle with it (R195 to R197). -/
theorem completeRead_failed {rx : Memory} {c : BitVec 5} {f : Failure} (hreq : InRequest s.log .read)
    (hv : validate (withRead s rx c) = .next (.failed f)) :
    (andThen (validate (withRead s rx c)) fun r => completeRequest r (setLog (withRead s rx c) v)) =
      .next (failedRequest f (setLog (withRead s rx c) v)) := by
  rw [hv, andThen_next]
  exact completeRequest_failed_eq (s := setLog (withRead s rx c) v) f hreq

/-! ### The two failures of a read -/

/-- Settles O40: the answer is not cut, and `validate()` looks at the count first. -/
theorem shortReadEndsCycle : Obligations.ShortReadEndsCycle := by
  intro s sense ok data hi hreq hn hlen
  have ⟨_, _, hq⟩ := hreq
  obtain ⟨rx, c, hrec, hstep⟩ := step_read_transport hi hreq hn
  rw [List.take_of_length_le hlen.le] at hrec
  obtain ⟨hcount, hbytes⟩ := hrec
  have hshort : validate (withRead s rx c) = .next (.failed .short) := validate_short hq (hcount.trans_lt hlen)
  refine ⟨_, hstep.trans (completeRead_failed hreq hshort), rfl, rfl, hcount, fun a => ?_, rfl⟩
  refine (hbytes a).trans ?_
  split
  · rename_i ha; rw [List.getElem?_eq_getElem ha]; rfl
  · rename_i ha; rw [List.getElem?_eq_none (by omega)]; rfl

/-- Settles O41: the bytes asked for came, and `validate()` stops at frame `j`. -/
theorem firstBadFrameReported : Obligations.FirstBadFrameReported := by
  intro s sense ok data j hi hreq hn hlen hj hgood hbad
  have ⟨_, _, hq⟩ := hreq
  obtain ⟨rx, c, hrec, hstep⟩ := step_read_transport hi hreq hn
  rw [List.length_take_of_le hlen] at hrec
  have hrec := received_of_take hrec le_rfl
  have hfail := validate_of_firstBadFrame (l := withRead s rx c) hq hn hlen hrec hj hgood hbad
  exact ⟨_, hstep.trans (completeRead_failed hreq hfail), rfl, rfl, hrec, rfl⟩

end Sys2Proof.Laws
end

