-- ==== Sys2Proof/Proofs/CompletedReads.lean ====
section
/-! A response read whose frames are all valid (R194, R199, R206 to R209, R213): the request completes with the words,
and the sequencer's rule of the phase goes on with them. -/

namespace Sys2Proof.Laws

open Sys2Proof.Machine Sys2Proof.Safety

variable {s v : State} {target : BusTarget}

/-! ### The sequencer's rules where a request succeeds (R206 to R209) -/

theorem continueReady_safe (hrd : s.log.rd = .idle) :
    continueReady (.ok [s.cfg.safeReadyValue]) s =
      .next (setLog (withRequest s.log .readMeas opReadMeasured 8) s) := by
  simp only [continueReady, safeToRead, beq_self_eq_true, if_true]
  exact enterPhase_next.mpr ⟨by decide, hrd, rfl⟩

theorem continueReady_notReady {w : Word} (hw : w ≠ s.cfg.safeReadyValue) :
    continueReady (.ok [w]) s = .next (endCycle (raiseLog (.notReady w) s)) := by
  simp [continueReady, safeToRead, hw]

theorem continueMeas_words (m : Measured) (hrd : s.log.rd = .idle) :
    continueMeas (.ok (measuredWords m)) s = .next (setLog (withRequest
      { s.log with meas := m, written := { s.log.written with meas := true } } .readRaw opReadRaw 4) s) :=
  enterPhase_next.mpr ⟨by decide, hrd, rfl⟩

theorem continueRaw_words (r : Raw) (hrd : s.log.rd = .idle) :
    continueRaw (.ok (rawWords r)) s = .next (setLog (withRequest
      { s.log with raw := r, written := { s.log.written with raw := true } } .readMyst opReadRawMystery 4) s) :=
  enterPhase_next.mpr ⟨by decide, hrd, rfl⟩

theorem continueMyst_words (r : RawMystery) (hmeas : s.log.written.meas = true) (hraw : s.log.written.raw = true) :
    continueMyst (.ok (mystWords r)) s = .next (setLog { s.log with
      phase := .cycleEnd, myst := r, written := { s.log.written with myst := true }
      records := s.log.records ++ [⟨s.log.meas, s.log.raw, r⟩] } s) :=
  andThen_eq_next.mpr ⟨_, emitRecord_next.mpr ⟨hmeas, hraw, rfl, rfl⟩, rfl⟩

/-! The rule `continueCycle` takes is its phase's. -/

variable (res : RequestResult)

theorem continueCycle_readyCheck (h : s.log.phase = .readyCheck) : continueCycle res s = continueReady res s := by
  simp only [continueCycle, h]

theorem continueCycle_readMeas (h : s.log.phase = .readMeas) : continueCycle res s = continueMeas res s := by
  simp only [continueCycle, h]

theorem continueCycle_readRaw (h : s.log.phase = .readRaw) : continueCycle res s = continueRaw res s := by
  simp only [continueCycle, h]

theorem continueCycle_readMyst (h : s.log.phase = .readMyst) : continueCycle res s = continueMyst res s := by
  simp only [continueCycle, h]

/-! ### A read that succeeds (R194, R199) -/

/-- The state in which the sequencer goes on after a read that succeeded: `s` with the read received (`rx`, `c`), its
words `ws` as result; the emulator is `v`'s. -/
def readDone (s : State) (rx : Memory) (c : BitVec 5) (ws : List Word) (v : State) : State :=
  storeResult (.ok ws) (setLog (withRead s rx c) v)

/-- A read answered with the frames of as many words as asked for completes with these words. -/
theorem reqRead_ok {ws : List Word} (hq : s.log.written.request = true) (hws : ws.length = s.log.nwords.toNat)
    (hlen : ws.length ≤ 8)
    (ha : readAnswer target (3 * s.log.nwords.toNat)
      (issue (.read s.cfg.i2cAddr (3 * s.log.nwords.toNat)) s) = .next (responseBytes ws, v)) :
    ∃ rx c, Received (responseBytes ws) (3 * ws.length) s.log (withRead s rx c) ∧
      reqRead target s = continueCycle (.ok ws) (readDone s rx c ws v) := by
  obtain ⟨rx, c, hrec, hread⟩ := reqRead_eq hq (by omega) ha
  rw [responseBytes_length] at hrec
  have hrecn : Received (responseBytes ws) (3 * s.log.nwords.toNat) s.log (withRead s rx c) := hws ▸ hrec
  have hv : validate (withRead s rx c) = .next (.ok ws) :=
    validate_of_validFrames (l := withRead s rx c) hq (hws ▸ hlen) (by rw [responseBytes_length, hws]; rfl) hrecn hws
      fun _ _ => frameOf_responseBytes
  exact ⟨rx, c, hrec, by rw [hread, hv, andThen_next, completeRequest_ok]; rfl⟩

/-- The step of such a read where the transport answers; its bytes past the frames are cut (log 11). -/
theorem step_read_ok {sense ok : Bool} {ws : List Word} {rest : List Byte}
    (hi : nextInput s = .logger { sense := sense, target := .transport ok (responseBytes ws ++ rest) })
    (hreq : InRequest s.log .read) (hws : ws.length = s.log.nwords.toNat) (hlen : ws.length ≤ 8) :
    ∃ rx c, Received (responseBytes ws ++ rest) (3 * ws.length) s.log (withRead s rx c) ∧
      step s = continueCycle (.ok ws) (readDone s rx c ws (consumeInput s)) := by
  have ⟨_, hrd, hq⟩ := hreq
  have htake : (responseBytes ws ++ rest).take (3 * ws.length) = responseBytes ws :=
    List.take_left' (responseBytes_length ws)
  have hanswer : ∀ u : State, readAnswer (.transport ok (responseBytes ws ++ rest)) (3 * s.log.nwords.toNat) u =
      .next (responseBytes ws, u) := fun u => by rw [← hws, readAnswer, htake]
  have hstep := calc step s
    _ = readerStep (.transport ok (responseBytes ws ++ rest)) (consumeInput s) := step_inRequest hi hreq
    _ = reqRead (.transport ok (responseBytes ws ++ rest)) (consumeInput s) := readerStep_read _ hrd
  obtain ⟨rx, c, hrec, hread⟩ := reqRead_ok (s := consumeInput s) hq hws hlen (hanswer _)
  rw [← htake] at hrec
  exact ⟨rx, c, received_of_take hrec le_rfl, hstep.trans hread⟩

/-! ### The four reads of a cycle -/

/-- Settles O42: the one word read is the ready check's result, compared with the safe value. -/
theorem readyCheckDecides : Obligations.ReadyCheckDecides := by
  intro s sense ok w rest hi hph hrd hq hn
  have hone : responseBytes [w] = frameBytes w := List.append_nil _
  rw [← hone] at hi ⊢
  obtain ⟨rx, c, hrec, hstep⟩ := step_read_ok hi ⟨.inl hph, hrd, hq⟩ (by rw [hn]; rfl) (by simp)
  have hstep := hstep.trans (continueCycle_readyCheck _ hph)
  by_cases hw : w = s.cfg.safeReadyValue
  · subst hw
    exact ⟨_, hstep.trans (continueReady_safe rfl), hrec, rfl, rfl,
      fun _ => ⟨rfl, requestIs_withRequest (by decide), rfl⟩, fun hne => absurd rfl hne⟩
  · exact ⟨_, hstep.trans (continueReady_notReady hw), hrec, rfl, rfl, fun h => absurd h hw,
      fun _ => ⟨rfl, rfl, rfl⟩⟩

/-- Settles O43: each read's words are the record's, which the phase's rule stores before it starts the next
request. -/
theorem readsAdvanceTheCycle : Obligations.ReadsAdvanceTheCycle := by
  refine fun s sense ok => ⟨fun m rest hi hph hreq hrd => ?meas, fun r rest hi hph hreq hrd => ?raw⟩
  case meas =>
    obtain ⟨-, hq, -, hn⟩ := hreq
    obtain ⟨rx, c, hrec, hstep⟩ := step_read_ok hi ⟨.inr (.inl hph), hrd, hq⟩ hn.symm (by simp [measuredWords])
    have hstep := hstep.trans (continueCycle_readMeas _ hph)
    exact ⟨_, hstep.trans (continueMeas_words m rfl), hrec, rfl, rfl, rfl, requestIs_withRequest (by decide), rfl, rfl⟩
  case raw =>
    obtain ⟨-, hq, -, hn⟩ := hreq
    obtain ⟨rx, c, hrec, hstep⟩ := step_read_ok hi ⟨.inr (.inr (.inl hph)), hrd, hq⟩ hn.symm (by simp [rawWords])
    have hstep := hstep.trans (continueCycle_readRaw _ hph)
    exact ⟨_, hstep.trans (continueRaw_words r rfl), hrec, rfl, rfl, rfl, rfl, requestIs_withRequest (by decide), rfl,
      rfl⟩

/-- Settles O44: the words read are the raw-mystery record's, and the record output takes the three records held. -/
theorem lastReadEmitsRecord : Obligations.LastReadEmitsRecord := by
  intro s sense ok r rest hi hph hreq hrd hmeas hraw
  obtain ⟨-, hq, -, hn⟩ := hreq
  obtain ⟨rx, c, hrec, hstep⟩ := step_read_ok hi ⟨.inr (.inr (.inr hph)), hrd, hq⟩ hn.symm (by simp [mystWords])
  have hstep := hstep.trans (continueCycle_readMyst _ hph)
  exact ⟨_, hstep.trans (continueMyst_words r hmeas hraw), hrec, rfl, rfl, rfl, rfl, rfl, rfl⟩

end Sys2Proof.Laws
end

