-- ==== Sys2Proof/Proofs/TurnOutcomes.lean ====
section
/-! Everything one turn of `LOG` can do to reports, records and transactions (R191 to R214). Each turn has one of five
outcomes, and what it reports or records is read off them. -/

namespace Sys2Proof.Laws

open Sys2Proof.Machine Sys2Proof.Safety

variable {s t : State} {d : LogDraw} {target : BusTarget} {l l' : Log}

/-! ### The outcomes of a turn -/

/-- What a turn does to the logger `l`, which it leaves as `l'`: it goes on quietly, entering neither `READ_RAW` nor
`READ_MYST`; it reports a failed request or a sensor that is not ready; it stores the words of the measured or the raw
read; or it emits the cycle's record. `loggerTurn_outcome` ties it to the model. -/
inductive TurnOutcome (l l' : Log) : Prop where
  | quiet (events : l'.events = l.events) (records : l'.records = l.records) (meas : l'.meas = l.meas)
      (raw : l'.raw = l.raw) (enters : l'.phase = l.phase ∨ l'.phase ≠ .readRaw ∧ l'.phase ≠ .readMyst)
  | reported (ev : Event) (complete : ∀ cmd n, ev ≠ .incompleteMessage cmd n) (events : l'.events = l.events ++ [ev])
      (records : l'.records = l.records) (meas : l'.meas = l.meas) (raw : l'.raw = l.raw)
      (phase : l'.phase = .cycleEnd) (rd : l'.rd = .idle)
  | measRead (before : l.phase = .readMeas) (phase : l'.phase = .readRaw)
      (result : l'.result = .ok (measuredWords l'.meas)) (raw : l'.raw = l.raw)
      (events : l'.events = l.events) (records : l'.records = l.records)
  | rawRead (before : l.phase = .readRaw) (phase : l'.phase = .readMyst)
      (result : l'.result = .ok (rawWords l'.raw)) (meas : l'.meas = l.meas)
      (events : l'.events = l.events) (records : l'.records = l.records)
  | recordEmitted (before : l.phase = .readMyst) (hmeas : l.written.meas = true) (hraw : l.written.raw = true)
      (phase : l'.phase = .cycleEnd) (result : l'.result = .ok (mystWords l'.myst))
      (records : l'.records = l.records ++ [⟨l.meas, l.raw, l'.myst⟩])
      (meas : l'.meas = l.meas) (raw : l'.raw = l.raw) (events : l'.events = l.events)

/-- A turn's outcome does not depend on what the logger received or issued in it before. -/
theorem turnOutcome_of_received {rx : Memory} {c : BitVec 5} {txs : List BusTx}
    (h : TurnOutcome { l with rx := rx, rxCount := c, issued := txs } l') : TurnOutcome l l' := by
  cases h with
  | quiet he hr hm hw hp => exact .quiet he hr hm hw hp
  | reported ev hev he hr hm hw hp hrd => exact .reported ev hev he hr hm hw hp hrd
  | measRead hb hp hres hw he hr => exact .measRead hb hp hres hw he hr
  | rawRead hb hp hres hm he hr => exact .rawRead hb hp hres hm he hr
  | recordEmitted hb hm hw hp hres hr hm' hw' he => exact .recordEmitted hb hm hw hp hres hr hm' hw' he

/-! ### The end of a request (R197, R206 to R209) -/

/-- A request that ends with its words: the rule of its phase goes on (R206 to R209). -/
theorem completeRequest_ok_outcome {ws : List Word} (h : completeRequest (.ok ws) s = .next t) :
    TurnOutcome s.log t.log := by
  rw [completeRequest_ok] at h
  rcases continueCycle_cases h with ⟨hp, h⟩ | ⟨hp, h⟩ | ⟨hp, h⟩ | ⟨hp, h⟩
  · rcases continueReady_cases h with ⟨w, -, -, -, rfl⟩ | ⟨w, -, -, rfl⟩ | ⟨-, rfl⟩
    · exact .quiet rfl rfl rfl rfl (.inr (by simp [withRequest]))
    · exact .reported _ (by simp) rfl rfl rfl rfl rfl rfl
    · exact .quiet rfl rfl rfl rfl (.inr (by simp))
  · rcases continueMeas_cases h with ⟨m, hws, -, rfl⟩ | ⟨e, he, -⟩
    · exact .measRead hp rfl hws rfl rfl rfl
    · cases he
  · rcases continueRaw_cases h with ⟨r, hws, -, rfl⟩ | ⟨e, he, -⟩
    · exact .rawRead hp rfl hws rfl rfl rfl
    · cases he
  · rcases continueMyst_cases h with ⟨r, hws, hmeas, hraw, rfl⟩ | ⟨e, he, -⟩
    · exact .recordEmitted hp hmeas hraw rfl hws rfl rfl rfl rfl
    · cases he

/-- The event of every failure but the defensive check's is another one than its (R234). -/
theorem failureEvent_ne_incompleteMessage {f : Failure} (hf : ∀ k, f ≠ .incomplete k) (cmd cmd' : Word)
    (c : BitVec 5) (n : Nat) : failureEvent cmd c f ≠ .incompleteMessage cmd' n := by
  cases f with
  | incomplete k => exact absurd rfl (hf k)
  | _ => simp [failureEvent]

/-- A request that ends without the defensive check (R197, R198, R211). -/
theorem completeRequest_outcome {r : Reply} (hr : ∀ n, r ≠ .failed (.incomplete n))
    (h : completeRequest r s = .next t) : TurnOutcome s.log t.log := by
  cases r with
  | ok ws => exact completeRequest_ok_outcome h
  | failed f =>
    obtain ⟨-, rfl⟩ := completeRequest_failed h
    have hf : ∀ n, f ≠ .incomplete n := fun n hn => hr n (congrArg Reply.failed hn)
    exact .reported _ (fun cmd n => failureEvent_ne_incompleteMessage hf _ cmd _ n) rfl rfl rfl rfl rfl rfl

/-- `validate()` decodes a word for each frame it goes on from, so the defensive check finds nothing (R195, R198). -/
theorem validate_ne_incomplete {r : Reply} (h : validate l = .next r) (n : Nat) : r ≠ .failed (.incomplete n) := by
  rcases validate_cases h with ⟨rfl, -⟩ | ⟨-, ws, rfl, -⟩ | ⟨-, j, -, rfl, -⟩ <;> simp

/-! ### The reader's steps and the turn (R191 to R205) -/

theorem reqWrite_outcome (h : reqWrite target s = .next t) : TurnOutcome s.log t.log := by
  obtain ⟨cmd, -, h⟩ := andThen_eq_next.mp h
  dsimp only at h
  split at h
  · cases h
    exact .quiet rfl rfl rfl rfl (.inl rfl)
  · have hout := completeRequest_outcome (by simp) h
    exact turnOutcome_of_received (l := s.log) hout
  · obtain ⟨u, hu, h⟩ := andThen_eq_next.mp h
    cases h
    rw [writeReceived_emu_only hu]
    exact .quiet rfl rfl rfl rfl (.inl rfl)

theorem reqSettle_outcome (h : reqSettle s = .next t) : TurnOutcome s.log t.log := by
  obtain ⟨n, -, h⟩ := andThen_eq_next.mp h
  dsimp only at h
  split at h
  · exact completeRequest_outcome (by simp) h
  · cases h
    exact .quiet rfl rfl rfl rfl (.inl rfl)

theorem reqRead_outcome (h : reqRead target s = .next t) : TurnOutcome s.log t.log := by
  obtain ⟨n, -, h⟩ := andThen_eq_next.mp h
  obtain ⟨a, ha, h⟩ := andThen_eq_next.mp h
  obtain ⟨u, hu, h⟩ := andThen_eq_next.mp h
  obtain ⟨r, hr, h⟩ := andThen_eq_next.mp h
  have hout := completeRequest_outcome (validate_ne_incomplete hr) h
  have halog : a.2.log = (issue (.read s.cfg.i2cAddr (3 * n)) s).log :=
    congrArg (fun v => v.log) (readAnswer_emu_only ha)
  obtain ⟨-, hframe⟩ := receive_received hu
  rw [hframe, setLog_log, halog] at hout
  exact turnOutcome_of_received (l := s.log) hout

/-- The first request of a cycle is the ready check or the measured read (R205). -/
theorem afterClearance_outcome (h : afterClearance s = .next t) : TurnOutcome s.log t.log := by
  obtain ⟨-, rfl⟩ := afterClearance_next.mp h
  rw [setLog_log]
  split <;> exact .quiet rfl rfl rfl rfl (.inr (by simp [withRequest]))

/-- Every turn of `LOG` has one of the outcomes. -/
theorem loggerTurn_outcome (h : loggerTurn d s = .next t) : TurnOutcome s.log t.log := by
  rcases loggerTurn_cases h with ⟨-, -, h⟩ | ⟨-, -, h⟩ | ⟨-, -, rfl⟩ | ⟨-, h⟩
  · unfold cycleStart at h
    split at h
    · cases h
      exact .quiet rfl rfl rfl rfl (.inr (by simp))
    · exact afterClearance_outcome h
  · rcases arbStep_cases h with ⟨-, rfl⟩ | ⟨-, h⟩
    · exact .quiet rfl rfl rfl rfl (.inl rfl)
    · exact afterClearance_outcome h
  · exact .quiet rfl rfl rfl rfl (.inr (by simp))
  · rcases readerStep_cases h with ⟨-, h⟩ | ⟨-, h⟩ | ⟨-, h⟩
    · exact reqWrite_outcome h
    · exact reqSettle_outcome h
    · exact reqRead_outcome h

/-- So has every step but the logger's reset: other inputs leave the logger as it is (R21). -/
theorem step_outcome (hr : nextInput s ≠ .resetLog) (h : step s = .next t) : TurnOutcome s.log t.log := by
  by_cases hl : ∃ d, nextInput s = .logger d
  · obtain ⟨d, hi⟩ := hl
    rw [step_logger hi] at h
    exact loggerTurn_outcome (s := consumeInput s) h
  · obtain ⟨hlog, -⟩ := unitsShareNoState s t h
    rw [hlog (not_exists.mp hl) hr]
    exact .quiet rfl rfl rfl rfl (.inl rfl)

/-! ### Reports (R198, R211) -/

/-- The event a turn reports is not the defensive check's. -/
theorem TurnOutcome.incompleteMessage_mem (h : TurnOutcome l l') {cmd : Word} {n : Nat}
    (hmem : .incompleteMessage cmd n ∈ l'.events) : .incompleteMessage cmd n ∈ l.events := by
  cases h with
  | quiet he | measRead _ _ _ _ he | rawRead _ _ _ _ he | recordEmitted _ _ _ _ _ _ _ _ he => exact he ▸ hmem
  | reported ev hev he =>
    rw [he, List.mem_append, List.mem_singleton] at hmem
    exact hmem.resolve_right (hev cmd n).symm

/-- Settles O46: no outcome of a step reports it, and the logger's reset empties the event output. -/
theorem incompleteMessageUnreachable : Obligations.IncompleteMessageUnreachable := by
  intro s t cmd n h hmem
  by_cases hr : nextInput s = .resetLog
  · rw [step_resetLog hr] at h
    cases h
    cases hmem
  · exact (step_outcome hr h).incompleteMessage_mem hmem

/-- Settles O56: one outcome reports, and it ends the cycle. -/
theorem firstFailureEndsCycle : Obligations.FirstFailureEndsCycle := by
  intro s t d hi h hne
  cases step_outcome (by simp [hi]) h with
  | quiet he | measRead _ _ _ _ he | rawRead _ _ _ _ he | recordEmitted _ _ _ _ _ _ _ _ he => exact absurd he hne
  | reported _ _ _ hrec _ _ hph hrd => exact ⟨hph, hrd, hrec⟩

/-! ### Records (R207 to R209, R212, R213) -/

namespace TurnOutcome

theorem of_records_ne (h : TurnOutcome l l') (hne : l'.records ≠ l.records) :
    l.phase = .readMyst ∧ l.written.meas = true ∧ l.written.raw = true ∧ l'.result = .ok (mystWords l'.myst) ∧
      l'.phase = .cycleEnd ∧ l'.records = l.records ++ [{ meas := l.meas, raw := l.raw, myst := l'.myst }] := by
  cases h with
  | quiet _ hrec | reported _ _ _ hrec | measRead _ _ _ _ _ hrec | rawRead _ _ _ _ _ hrec => exact absurd hrec hne
  | recordEmitted hb hmeas hraw hph hres hrec => exact ⟨hb, hmeas, hraw, hres, hph, hrec⟩

theorem of_enters_readRaw (h : TurnOutcome l l') (hph : l'.phase = .readRaw) (hne : l.phase ≠ .readRaw) :
    l.phase = .readMeas ∧ l'.result = .ok (measuredWords l'.meas) := by
  cases h with
  | quiet _ _ _ _ henters =>
    rcases henters with hsame | ⟨hnot, -⟩
    · exact absurd (hsame.symm.trans hph) hne
    · exact absurd hph hnot
  | measRead hb _ hres => exact ⟨hb, hres⟩
  | reported _ _ _ _ _ _ hph' | rawRead _ hph' | recordEmitted _ _ _ hph' => rw [hph'] at hph; cases hph

theorem of_enters_readMyst (h : TurnOutcome l l') (hph : l'.phase = .readMyst) (hne : l.phase ≠ .readMyst) :
    l.phase = .readRaw ∧ l'.result = .ok (rawWords l'.raw) ∧ l'.meas = l.meas := by
  cases h with
  | quiet _ _ _ _ henters =>
    rcases henters with hsame | ⟨-, hnot⟩
    · exact absurd (hsame.symm.trans hph) hne
    · exact absurd hph hnot
  | rawRead hb _ hres hmeas => exact ⟨hb, hres, hmeas⟩
  | reported _ _ _ _ _ _ hph' | measRead _ hph' | recordEmitted _ _ _ hph' => rw [hph'] at hph; cases hph

theorem of_meas_ne (h : TurnOutcome l l') (hne : l'.meas ≠ l.meas) : l.phase = .readMeas ∧ l'.phase = .readRaw := by
  cases h with
  | quiet _ _ hmeas | reported _ _ _ _ hmeas | rawRead _ _ _ hmeas | recordEmitted _ _ _ _ _ _ hmeas =>
    exact absurd hmeas hne
  | measRead hb hph => exact ⟨hb, hph⟩

theorem of_raw_ne (h : TurnOutcome l l') (hne : l'.raw ≠ l.raw) : l.phase = .readRaw ∧ l'.phase = .readMyst := by
  cases h with
  | quiet _ _ _ hraw | reported _ _ _ _ _ hraw | measRead _ _ _ hraw | recordEmitted _ _ _ _ _ _ _ hraw =>
    exact absurd hraw hne
  | rawRead hb hph => exact ⟨hb, hph⟩

end TurnOutcome

/-- Settles O57: each clause is one outcome's, by what the other outcomes leave. -/
theorem recordsOnlyFromCompleteCycles : Obligations.RecordsOnlyFromCompleteCycles := by
  intro s t h hr
  have hout := step_outcome hr h
  exact ⟨hout.of_records_ne, hout.of_enters_readRaw, hout.of_enters_readMyst, hout.of_meas_ne, hout.of_raw_ne⟩

/-! ### Transactions (R191, R194, R214) -/

/-- The transaction a turn issues: none, the write of `log.cmd`, or the read of the frames of `log.nwords` words.
`loggerTurn_issues` ties it to the model. -/
def Issues (s t : State) : Prop :=
  t.log.issued = s.log.issued ∨ s.log.rd ≠ .idle ∧
    (t.log.issued = s.log.issued ++ [.write s.cfg.i2cAddr [highByte s.log.cmd, lowByte s.log.cmd]] ∨
      t.log.issued = s.log.issued ++ [.read s.cfg.i2cAddr (3 * s.log.nwords.toNat)])

theorem reqWrite_issued (h : reqWrite target s = .next t) : t.log.issued =
    s.log.issued ++ [.write s.cfg.i2cAddr [highByte s.log.cmd, lowByte s.log.cmd]] := by
  obtain ⟨cmd, hcmd, h⟩ := andThen_eq_next.mp h
  obtain ⟨-, rfl⟩ := logCmd_next.mp hcmd
  dsimp only at h
  split at h
  · cases h; rfl
  · exact completeRequest_issued h
  · obtain ⟨u, hu, h⟩ := andThen_eq_next.mp h
    cases h
    exact congrArg (fun u => u.log.issued) (writeReceived_emu_only hu)

theorem reqSettle_issued (h : reqSettle s = .next t) : t.log.issued = s.log.issued := by
  obtain ⟨n, -, h⟩ := andThen_eq_next.mp h
  dsimp only at h
  split at h
  · exact completeRequest_issued h
  · cases h; rfl

theorem reqRead_issued (h : reqRead target s = .next t) :
    t.log.issued = s.log.issued ++ [.read s.cfg.i2cAddr (3 * s.log.nwords.toNat)] := by
  obtain ⟨n, hn, h⟩ := andThen_eq_next.mp h
  obtain ⟨-, rfl⟩ := logNwords_next.mp hn
  obtain ⟨a, ha, h⟩ := andThen_eq_next.mp h
  obtain ⟨u, hu, h⟩ := andThen_eq_next.mp h
  obtain ⟨r, -, h⟩ := andThen_eq_next.mp h
  calc t.log.issued
    _ = u.log.issued := completeRequest_issued h
    _ = a.2.log.issued := receive_issued hu
    _ = _ := congrArg (fun v => v.log.issued) (readAnswer_emu_only ha)

theorem afterClearance_issued (h : afterClearance s = .next t) : t.log.issued = s.log.issued := by
  obtain ⟨-, rfl⟩ := afterClearance_next.mp h
  rw [setLog_log]
  split <;> rfl

theorem loggerTurn_issues (h : loggerTurn d s = .next t) : Issues s t := by
  rcases loggerTurn_cases h with ⟨-, -, h⟩ | ⟨-, -, h⟩ | ⟨-, -, rfl⟩ | ⟨-, h⟩
  · unfold cycleStart at h
    split at h
    · cases h
      exact .inl rfl
    · exact .inl (afterClearance_issued h)
  · rcases arbStep_cases h with ⟨-, rfl⟩ | ⟨-, h⟩
    · exact .inl rfl
    · exact .inl (afterClearance_issued h)
  · exact .inl rfl
  · rcases readerStep_cases h with ⟨hrd, h⟩ | ⟨-, h⟩ | ⟨hrd, h⟩
    · exact .inr ⟨by simp [hrd], .inl (reqWrite_issued h)⟩
    · exact .inl (reqSettle_issued h)
    · exact .inr ⟨by simp [hrd], .inr (reqRead_issued h)⟩

/-- In the invariant the write and the read of the request in progress are its phase's (R205 to R208, R214). -/
theorem mayIssue_of_logInv {p : Params} (h : LogInv p l) (hrd : l.rd ≠ .idle) :
    mayIssue p l.phase (.write p.i2cAddr [highByte l.cmd, lowByte l.cmd]) ∧
      mayIssue p l.phase (.read p.i2cAddr (3 * l.nwords.toNat)) := by
  obtain ⟨-, hp⟩ := logInv_iff.mp h
  cases hph : l.phase <;> simp only [hph, PhaseInv] at hp
  case cycleStart | arbWait | cycleEnd => exact absurd hp hrd
  case readyCheck | readMeas =>
    obtain ⟨-, -, hc, hn⟩ := hp
    rw [hc, hn]
    exact ⟨.inl rfl, .inr rfl⟩
  case readRaw | readMyst =>
    obtain ⟨⟨-, -, hc, hn⟩, -⟩ := hp
    rw [hc, hn]
    exact ⟨.inl rfl, .inr rfl⟩

/-- Settles O58: only a turn of `LOG` issues, and in the invariant its request is the phase's. -/
theorem loggerSendsOnlyItsOpcodes : Obligations.LoggerSendsOnlyItsOpcodes := by
  intro s t hinv h hr hne
  by_cases hl : ∃ d, nextInput s = .logger d
  · obtain ⟨d, hi⟩ := hl
    obtain ⟨-, -, hlog⟩ := hinv
    rw [step_logger hi] at h
    rcases loggerTurn_issues h with hsame | ⟨hrd, hissued⟩
    · exact absurd hsame hne
    · obtain ⟨hwrite, hread⟩ := mayIssue_of_logInv hlog hrd
      rcases hissued with hissued | hissued
      · exact ⟨_, hissued, hwrite⟩
      · exact ⟨_, hissued, hread⟩
  · obtain ⟨hlog, -⟩ := unitsShareNoState s t h
    exact absurd (congrArg Log.issued (hlog (not_exists.mp hl) hr)) hne

end Sys2Proof.Laws
end

