-- ==== Sys2Proof/Proofs/Composition.lean ====
section
/-! The logger on an emulator of this block (R216): each transaction it issues is the emulator's event in the same
step, and a request runs from its command write to its words. -/

namespace Sys2Proof.Laws

open Sys2Proof.Machine Sys2Proof.Safety

variable {s t u : State} {sense : Bool}

/-! ### Single transactions (R216) -/

/-- The state after the command write: the emulator is `u`'s, and the reader goes to the settle delay. -/
def commandSent (s u : State) : State :=
  setLog { s.log with
    rd := .settle
    issued := s.log.issued ++ [.write s.cfg.i2cAddr [highByte s.log.cmd, lowByte s.log.cmd]] } u

/-- The command write is the emulator's command step (R120, R191). -/
theorem reqWrite_emulator (hq : s.log.written.request = true) (hu : exec (decodeOpcode s.log.cmd) s = .next u) :
    reqWrite .emulator s = .next (commandSent s u) := by
  have hw : writeReceived [highByte s.log.cmd, lowByte s.log.cmd] s = .next u := by
    rw [writeReceived_cons_cons, wordOf_bytes, hu]
  exact andThen_eq_next.mpr ⟨s.log.cmd, logCmd_next.mpr ⟨hq, rfl⟩,
    andThen_eq_next.mpr ⟨_, writeReceived_setLog _ hw, rfl⟩⟩

theorem step_write_emulator (hi : nextInput s = .logger { sense := sense, target := .emulator })
    (hreq : InRequest s.log .write) (hu : exec (decodeOpcode s.log.cmd) (consumeInput s) = .next u) :
    step s = .next (commandSent s u) := by
  have ⟨_, hrd, hq⟩ := hreq
  calc step s
    _ = readerStep .emulator (consumeInput s) := step_inRequest hi hreq
    _ = reqWrite .emulator (consumeInput s) := readerStep_write _ hrd
    _ = _ := reqWrite_emulator (s := consumeInput s) hq hu

/-- The answer to a read is what the emulator's bus read returned (R150, R194). -/
theorem readAnswer_emulator (tx : BusTx) {k : Nat} (hu : busRead k s = .next u) :
    readAnswer .emulator k (issue tx s) = .next (u.emu.busOut, setLog (issue tx s).log u) :=
  andThen_eq_next.mpr ⟨_, busRead_setLog _ hu, rfl⟩

theorem step_read_emulator (hi : nextInput s = .logger { sense := sense, target := .emulator })
    (hreq : InRequest s.log .read) : step s = reqRead .emulator (consumeInput s) := by
  have ⟨_, hrd, _⟩ := hreq
  exact (step_inRequest hi hreq).trans (readerStep_read _ hrd)

/-- The completion of a request leaves the bytes received and their count (R197). -/
theorem continueCycle_received {res : RequestResult} (h : continueCycle res s = .next t) :
    t.log.rx = s.log.rx ∧ t.log.rxCount = s.log.rxCount := by
  rcases continueCycle_cases h with ⟨-, h⟩ | ⟨-, h⟩ | ⟨-, h⟩ | ⟨-, h⟩
  · rcases continueReady_cases h with ⟨w, -, -, -, rfl⟩ | ⟨w, -, -, rfl⟩ | ⟨-, rfl⟩ <;> exact ⟨rfl, rfl⟩
  · rcases continueMeas_cases h with ⟨m, -, -, rfl⟩ | ⟨e, -, rfl⟩ <;> exact ⟨rfl, rfl⟩
  · rcases continueRaw_cases h with ⟨r, -, -, rfl⟩ | ⟨e, -, rfl⟩ <;> exact ⟨rfl, rfl⟩
  · rcases continueMyst_cases h with ⟨r, -, -, -, rfl⟩ | ⟨e, -, rfl⟩ <;> exact ⟨rfl, rfl⟩

theorem completeRequest_received {r : Reply} (h : completeRequest r s = .next t) :
    t.log.rx = s.log.rx ∧ t.log.rxCount = s.log.rxCount := by
  cases r with
  | ok ws =>
    rw [completeRequest_ok] at h
    exact continueCycle_received (s := storeResult (.ok ws) s) h
  | failed f => obtain ⟨-, rfl⟩ := completeRequest_failed h; exact ⟨rfl, rfl⟩

/-- Settles O59: the write's step is the emulator's command step, and the read receives what the emulator's bus read
returned before the request completes, in the logger alone. -/
theorem compositionIsOneStep : Obligations.CompositionIsOneStep := by
  intro s sense hinv hi
  have ⟨_, hemu, hlog⟩ := hinv
  refine ⟨fun hreq => ?write, fun hreq => ?read⟩
  case write =>
    obtain ⟨u, hu, -⟩ := exec_answers (s := consumeInput s) (decodeOpcode s.log.cmd) (fsm_ne_unused hemu)
    exact ⟨_, u, hu, step_write_emulator hi hreq hu, rfl, rfl, rfl⟩
  case read =>
    have ⟨_, hrd, hq⟩ := hreq
    obtain ⟨-, -, -, -, hn⟩ := request_of_logInv hlog (by simp [hrd])
    obtain ⟨u, hu, -, hlen⟩ := busRead_keeps_emuInv (s := consumeInput s) (3 * s.log.nwords.toNat) hemu
    obtain ⟨rx, c, hrec, hread⟩ := reqRead_eq (s := consumeInput s) hq hn (readAnswer_emulator _ hu)
    rw [hlen] at hrec
    obtain ⟨hcount, hbytes⟩ := hrec
    obtain ⟨t, ht, -⟩ := everyStepAnswersAndKeepsInvariant s hinv
    have hdone := hread.symm.trans ((step_read_emulator hi hreq).symm.trans ht)
    obtain ⟨r, -, hr⟩ := andThen_eq_next.mp hdone
    obtain ⟨hrx, hrxCount⟩ := completeRequest_received hr
    refine ⟨t, u, hu, ht, ?_, ?_, fun j hj => ?_⟩
    · rw [completeRequest_log_only hr]; rfl
    · rw [hrxCount]; exact hcount
    · rw [hrx]; exact (hbytes j).trans (if_pos hj)

end Sys2Proof.Laws
end

