-- ==== Sys2Proof/Proofs/PollingCycle.lean ====
section
/-! A polling cycle of the logger on an emulator of this block (R203 to R216): each request runs in three turns from
its command write to its words, and the requests follow one another to the record. -/

namespace Sys2Proof.Laws

open Sys2Proof.Machine Sys2Proof.Safety

variable {s t u : State} {rest : List Input} {i : Instr}

/-! ### A command and the read of its response (R83, R120, R150) -/

/-- Taking the input is no part of a command's effect. -/
theorem commandEffect_consumeInput (i : Instr) (s : State) :
    (commandEffect i (consumeInput s)).emu = (commandEffect i s).emu := by
  cases i <;> rfl

/-- The emulator of `u` has run command `i` from that of `s`, and its response has been read: it is in `Idle` with
nothing buffered, and but for the response the command's effect is all that is left. -/
structure Answered (i : Instr) (s u : State) : Prop where
  cfg : u.cfg = s.cfg
  fsm : u.emu.fsm = .idle
  txLen : u.emu.txLen = 0
  pm25 : u.emu.pm25 = (commandEffect i s).emu.pm25
  tickPending : u.emu.tickPending = (commandEffect i s).emu.tickPending
  events : u.emu.events = (commandEffect i s).emu.events

/-- The read of the whole response returns its words' frames, whatever changed since the command but the emulator and
the parameters. -/
theorem busRead_of_exec {v w : State} (hexec : exec i (consumeInput s) = .next v)
    (hne : commandWords s.cfg s.emu.pm25 i ≠ []) (hemu : w.emu = v.emu) (hcfg : w.cfg = v.cfg) :
    ∃ u, busRead (3 * (commandWords s.cfg s.emu.pm25 i).length) w = .next u ∧
      u.emu.busOut = responseBytes (commandWords s.cfg s.emu.pm25 i) ∧ Answered i s u ∧ u.env = w.env := by
  obtain ⟨-, hresp, hpm, htick, hev⟩ := exec_next hexec
  have hready : w.emu.fsm = .readyToSend := by rw [hemu, hresp.fsm]; exact if_neg hne
  have hout : deliver w.emu w.env.steps (3 * (commandWords s.cfg s.emu.pm25 i).length) =
      .next (responseBytes (commandWords s.cfg s.emu.pm25 i)) := by
    rw [hemu]
    exact hresp.len ▸ deliver_responded hresp (commandWords_length_le _ _ _) w.env.steps
  rw [← hemu, commandEffect_consumeInput] at hpm htick hev
  exact ⟨_, (busRead_ready _ hready).trans (congrArg (andThen · _) hout), rfl,
    ⟨hcfg.trans hresp.cfg, rfl, rfl, hpm, htick, hev⟩, rfl⟩

/-! ### A whole request (R190 to R199, R216) -/

/-- `k` steps from `s` lead to `t`, whatever number of steps the run then goes on for. -/
def RunsTo (k : Nat) (s t : State) : Prop :=
  ∀ n, Host.Core.run Sys2Proof.core (n + k) s = Host.Core.run Sys2Proof.core n t

theorem runsTo_of_step (h : step s = .next t) : RunsTo 1 s t := by
  intro n
  have hcore : Sys2Proof.core.step s = .next t := h
  simp only [Host.Core.run, hcore]

theorem RunsTo.trans {k l : Nat} (hst : RunsTo k s t) (htu : RunsTo l t u) : RunsTo (l + k) s u :=
  fun n => (congrArg (Host.Core.run Sys2Proof.core · s) (Nat.add_assoc n l k).symm).trans
    ((hst (n + l)).trans (htu n))

theorem RunsTo.run_eq {k : Nat} (h : RunsTo k s t) : Host.Core.run Sys2Proof.core k s = .next t := by
  have h0 := h 0
  rwa [Nat.zero_add] at h0

/-- The step after the settle delay, with words asked for (R193). -/
theorem step_settle_words {d : LogDraw} (hi : nextInput s = .logger d) (hreq : InRequest s.log .settle)
    (hn : s.log.nwords.toNat ≠ 0) : step s = .next (setLog { s.log with rd := .read } (consumeInput s)) := by
  have ⟨_, _, hq⟩ := hreq
  exact (step_settle hi hreq).trans (reqSettle_words (s := consumeInput s) hq hn)

/-- The request in progress in the logger `l₀` has brought the words `ws`: `l` holds them as its result, the reader is
idle, and but for what a read receives and what was issued nothing else has changed. -/
def Completed (ws : List Word) (l₀ l : Log) : Prop :=
  l = { l₀ with
    rd := .idle, rx := l.rx, rxCount := l.rxCount, issued := l.issued
    result := .ok ws, written := { l₀.written with result := true } }

/-- The first two turns of a request on an emulator: the emulator takes the command in one, and the settle delay
passes in the other. -/
theorem run_write_settle {v : State} (hscript : s.env.script = List.replicate 3 loggerOnEmulator ++ rest)
    (hreq : InRequest s.log .write) (hn : s.log.nwords.toNat ≠ 0)
    (hv : exec (decodeOpcode s.log.cmd) (consumeInput s) = .next v) :
    ∃ w : State, RunsTo 2 s w ∧
      w.emu = v.emu ∧ w.cfg = v.cfg ∧ w.env.script = loggerOnEmulator :: rest ∧
      w.log = { s.log with rd := .read, issued := w.log.issued } := by
  have ⟨hphase, _, hq⟩ := hreq
  obtain ⟨-, hresp, -⟩ := exec_next hv
  have hvscript : v.env.script = List.replicate 2 loggerOnEmulator ++ rest := by
    rw [hresp.env, consumeInput_script, hscript]
    rfl
  have hwrite := step_write_emulator (nextInput_script hscript) hreq hv
  have hsettle := step_settle_words (s := commandSent s v) (nextInput_script hvscript) ⟨hphase, rfl, hq⟩ hn
  exact ⟨_, (runsTo_of_step hwrite).trans (runsTo_of_step hsettle), rfl, rfl, congrArg List.tail hvscript, rfl⟩

/-- Three turns of `LOG` take a request on an emulator from its command write to its words, with which the sequencer
goes on from `u` in the third. -/
theorem run_request (hscript : s.env.script = List.replicate 3 loggerOnEmulator ++ rest)
    (hreq : InRequest s.log .write) (hcmd : decodeOpcode s.log.cmd = i) (hfsm : s.emu.fsm ≠ .unused)
    (hne : commandWords s.cfg s.emu.pm25 i ≠ [])
    (hn : (commandWords s.cfg s.emu.pm25 i).length = s.log.nwords.toNat) :
    ∃ u, Answered i s u ∧ u.env.script = rest ∧ Completed (commandWords s.cfg s.emu.pm25 i) s.log u.log ∧
      ∀ t, continueCycle (.ok (commandWords s.cfg s.emu.pm25 i)) u = .next t → RunsTo 3 s t := by
  have ⟨hphase, _, hq⟩ := hreq
  have hpos := List.length_pos_of_ne_nil hne
  obtain ⟨v, hv, -⟩ := exec_answers (s := consumeInput s) i hfsm
  obtain ⟨w, hrun, hwemu, hwcfg, hwscript, hwlog⟩ := run_write_settle hscript hreq (by omega) (hcmd.symm ▸ hv)
  obtain ⟨u, hu, hout, hans, henv⟩ := busRead_of_exec (w := consumeInput w) hv hne hwemu hwcfg
  have hwn : w.log.nwords = s.log.nwords := by rw [hwlog]
  have hwreq : InRequest w.log .read := by rw [hwlog]; exact ⟨hphase, rfl, hq⟩
  have ⟨_, _, hwq⟩ := hwreq
  have hanswer := readAnswer_emulator (.read w.cfg.i2cAddr (3 * w.log.nwords.toNat)) hu
  rw [hout, hn, ← hwn] at hanswer
  obtain ⟨rx, c, -, hread⟩ := reqRead_ok (s := consumeInput w) hwq (hn.trans (congrArg BitVec.toNat hwn.symm))
    (commandWords_length_le _ _ _) hanswer
  have hstep := (step_read_emulator (nextInput_script hwscript) hwreq).trans hread
  have hscript : u.env.script = rest := by rw [henv, consumeInput_script, hwscript]; rfl
  refine ⟨readDone (consumeInput w) rx c _ _,
    ⟨hans.cfg, hans.fsm, hans.txLen, hans.pm25, hans.tickPending, hans.events⟩, hscript, ?log,
    fun t ht => hrun.trans (runsTo_of_step (hstep.trans ht))⟩
  case log =>
    simp only [Completed, readDone, storeResult_log, setLog_log, withRead, consumeInput_log]
    rw [hwlog]

/-! ### The requests of a cycle (R205 to R209) -/

/-- What every state of the cycle that started in `s` keeps, with the inputs `rest` still to come: no event is raised in
either unit and no record is appended, the emulator takes commands, and its counter is as it was. -/
structure CycleKept (s t : State) (rest : List Input) : Prop where
  script : t.env.script = rest
  cfg : t.cfg = s.cfg
  fsm : t.emu.fsm ≠ .unused
  pm25 : t.emu.pm25 = s.emu.pm25
  emuEvents : t.emu.events = s.emu.events
  logEvents : t.log.events = s.log.events
  records : t.log.records = s.log.records

/-- The cycle that started in `s` has come in `t` to the command write of phase `ph`, whose request is for the response
of command `i`. -/
structure AtRequest (s t : State) (rest : List Input) (ph : LogPhase) (i : Instr) : Prop where
  kept : CycleKept s t rest
  phase : t.log.phase = ph
  request : InRequest t.log .write
  cmd : decodeOpcode t.log.cmd = i
  nwords : (commandWords s.cfg s.emu.pm25 i).length = t.log.nwords.toNat

/-- The start of the next request keeps what the cycle keeps. -/
theorem atRequest_withRequest {ph : LogPhase} {cmd : Word} {n : Nat} (hk : CycleKept s t rest) {l : Log}
    (hevents : l.events = t.log.events) (hrecords : l.records = t.log.records)
    (hph : ph = .readyCheck ∨ ph = .readMeas ∨ ph = .readRaw ∨ ph = .readMyst) (hcmd : decodeOpcode cmd = i)
    (hn : (commandWords s.cfg s.emu.pm25 i).length = n) :
    AtRequest s (setLog (withRequest l ph cmd n) t) rest ph i := by
  have hle : n ≤ 8 := hn ▸ commandWords_length_le _ _ _
  exact ⟨⟨hk.script, hk.cfg, hk.fsm, hk.pm25, hk.emuEvents, hevents.trans hk.logEvents, hrecords.trans hk.records⟩,
    rfl, ⟨hph, rfl, rfl⟩, hcmd, hn.trans (txLen_toNat hle).symm⟩

/-- A request of the cycle runs to its words in three turns: the sequencer goes on from `u`. The commands with a
response neither restart the counter nor raise an event (R131 to R136). -/
theorem run_atRequest {ph : LogPhase} (h : AtRequest s t (List.replicate 3 loggerOnEmulator ++ rest) ph i)
    (hne : commandWords s.cfg s.emu.pm25 i ≠ []) :
    ∃ u, CycleKept s u rest ∧ Answered i t u ∧ Completed (commandWords s.cfg s.emu.pm25 i) t.log u.log ∧
      ∀ t', continueCycle (.ok (commandWords s.cfg s.emu.pm25 i)) u = .next t' → RunsTo 3 t t' := by
  have hk := h.kept
  have hwords : commandWords t.cfg t.emu.pm25 i = commandWords s.cfg s.emu.pm25 i := by rw [hk.cfg, hk.pm25]
  obtain ⟨u, hans, hscript, hlog, hrun⟩ := run_request hk.script h.request h.cmd hk.fsm (hwords ▸ hne)
    (hwords ▸ h.nwords)
  rw [hwords] at hlog hrun
  have hpm : u.emu.pm25 = t.emu.pm25 := hans.pm25.trans (commandEffect_pm25 fun hi => hne (by rw [hi]; rfl))
  have hev : u.emu.events = t.emu.events :=
    hans.events.trans (commandEffect_events fun op hi => hne (by rw [hi]; rfl))
  refine ⟨u, ⟨hscript, hans.cfg.trans hk.cfg, ?_, hpm.trans hk.pm25, hev.trans hk.emuEvents, ?_, ?_⟩, hans, hlog, hrun⟩
  · rw [hans.fsm]; decide
  · rw [hlog]; exact hk.logEvents
  · rw [hlog]; exact hk.records

/-- The ready check, passed: the emulator answers with its ready flag, which is the safe value (R205, R206). -/
theorem run_readyCheck (h : AtRequest s t (List.replicate 3 loggerOnEmulator ++ rest) .readyCheck .readDataReady)
    (hsafe : s.cfg.safeReadyValue = s.cfg.readyFlag) :
    ∃ t', RunsTo 3 t t' ∧
      AtRequest s t' rest .readMeas .readMeasured := by
  obtain ⟨u, hk, -, hlog, hrun⟩ := run_atRequest h (by simp [commandWords])
  have hph : u.log.phase = .readyCheck := by rw [hlog]; exact h.phase
  have hwords : commandWords s.cfg s.emu.pm25 .readDataReady = [u.cfg.safeReadyValue] := by
    rw [hk.cfg, hsafe]; rfl
  have hnext := (continueCycle_readyCheck _ hph).trans (continueReady_safe (s := u) (by rw [hlog]))
  rw [← hwords] at hnext
  exact ⟨_, hrun _ hnext, atRequest_withRequest hk rfl rfl (by simp) rfl rfl⟩

/-- The measured read: the record held is the configured words and the counter (R207). -/
theorem run_readMeas (h : AtRequest s t (List.replicate 3 loggerOnEmulator ++ rest) .readMeas .readMeasured) :
    ∃ t', RunsTo 3 t t' ∧
      AtRequest s t' rest .readRaw .readRaw ∧
      t'.log.written.meas = true ∧ t'.log.meas = measuredRecord s.cfg s.emu.pm25 := by
  obtain ⟨u, hk, -, hlog, hrun⟩ := run_atRequest h (by simp [commandWords])
  have hph : u.log.phase = .readMeas := by rw [hlog]; exact h.phase
  have hnext := (continueCycle_readMeas _ hph).trans
    (continueMeas_words (s := u) (measuredRecord s.cfg s.emu.pm25) (by rw [hlog]))
  exact ⟨_, hrun _ hnext, atRequest_withRequest hk rfl rfl (by simp) rfl rfl, rfl, rfl⟩

/-- The raw read: the measured record stays held (R208). -/
theorem run_readRaw (h : AtRequest s t (List.replicate 3 loggerOnEmulator ++ rest) .readRaw .readRaw)
    (hwritten : t.log.written.meas = true) :
    ∃ t', RunsTo 3 t t' ∧
      AtRequest s t' rest .readMyst .readRawMystery ∧
      t'.log.written.meas = true ∧ t'.log.meas = t.log.meas ∧
      t'.log.written.raw = true ∧ t'.log.raw = s.cfg.recRaw := by
  obtain ⟨u, hk, -, hlog, hrun⟩ := run_atRequest h (by simp [commandWords])
  have hph : u.log.phase = .readRaw := by rw [hlog]; exact h.phase
  have hnext := (continueCycle_readRaw _ hph).trans (continueRaw_words (s := u) s.cfg.recRaw (by rw [hlog]))
  have hmeas : u.log.meas = t.log.meas := by rw [hlog]
  have hwritten : u.log.written.meas = true := by rw [hlog]; exact hwritten
  exact ⟨_, hrun _ hnext, atRequest_withRequest hk rfl rfl (by simp) rfl rfl, hwritten, hmeas, rfl, rfl⟩

/-- The cycle that started in `s` is over in `t`, with the record `r` appended and the emulator's tick pending. -/
structure CycleDone (s t : State) (r : Record) : Prop where
  phase : t.log.phase = .cycleStart
  records : t.log.records = s.log.records ++ [r]
  logEvents : t.log.events = s.log.events
  emuEvents : t.emu.events = s.emu.events
  fsm : t.emu.fsm = .idle
  txLen : t.emu.txLen = 0
  tickPending : t.emu.tickPending = true
  pm25 : t.emu.pm25 = s.emu.pm25

/-- The raw-mystery read and the cycle's end: the record is emitted, and the command has set the tick (R136, R209,
R210, R213). -/
theorem run_readMyst (h : AtRequest s t (List.replicate 4 loggerOnEmulator ++ rest) .readMyst .readRawMystery)
    (hmeas : t.log.written.meas = true) (hraw : t.log.written.raw = true) :
    ∃ t', RunsTo 4 t t' ∧ CycleDone s t' ⟨t.log.meas, t.log.raw, s.cfg.recMyst⟩ := by
  obtain ⟨u, hk, hans, hlog, hrun⟩ := run_atRequest (rest := loggerOnEmulator :: rest) h (by simp [commandWords])
  have hph : u.log.phase = .readMyst := by rw [hlog]; exact h.phase
  have hheld : u.log.written.meas = true ∧ u.log.written.raw = true ∧ u.log.meas = t.log.meas ∧
      u.log.raw = t.log.raw := by rw [hlog]; exact ⟨hmeas, hraw, rfl, rfl⟩
  obtain ⟨hmeas, hraw, hm, hr⟩ := hheld
  have hrd : u.log.rd = .idle := by rw [hlog]
  have hnext := (continueCycle_readMyst _ hph).trans (continueMyst_words s.cfg.recMyst hmeas hraw)
  refine ⟨_, (hrun _ hnext).trans (runsTo_of_step (step_cycleEnd (nextInput_script hk.script) rfl hrd)), rfl, ?records,
    hk.logEvents, hk.emuEvents, hans.fsm, hans.txLen, hans.tickPending, hk.pm25⟩
  case records =>
    rw [← hm, ← hr, ← hk.records]
    rfl

/-! ### The cycle (R203, R205, R216) -/

/-- From the measured read on, ten turns end the cycle with the emulator's words as its record. -/
theorem run_fromMeasured (h : AtRequest s t (List.replicate 10 loggerOnEmulator ++ rest) .readMeas .readMeasured) :
    ∃ t', RunsTo 10 t t' ∧
      CycleDone s t' ⟨measuredRecord s.cfg s.emu.pm25, s.cfg.recRaw, s.cfg.recMyst⟩ := by
  obtain ⟨t₁, hrun₁, h₁, hw₁, hm₁⟩ := run_readMeas (rest := List.replicate 7 loggerOnEmulator ++ rest) h
  obtain ⟨t₂, hrun₂, h₂, hw₂, hm₂, hw₂', hr₂⟩ := run_readRaw (rest := List.replicate 4 loggerOnEmulator ++ rest) h₁ hw₁
  obtain ⟨t₃, hrun₃, hdone⟩ := run_readMyst h₂ hw₂ hw₂'
  rw [hm₂, hm₁, hr₂] at hdone
  exact ⟨t₃, hrun₁.trans (hrun₂.trans hrun₃), hdone⟩

/-- Taking the first input keeps what the cycle keeps. -/
theorem cycleKept_consumeInput {d : Input} (hinv : BoundaryInv s) (hscript : s.env.script = d :: rest) :
    CycleKept s (consumeInput s) rest := by
  obtain ⟨-, hemu, -⟩ := hinv
  exact ⟨by rw [consumeInput_script, hscript]; rfl, rfl, fsm_ne_unused hemu, rfl, rfl, rfl, rfl⟩

/-- The cycle's first step, with arbitration bypassed, starts the ready check or the measured read (R203, R205). -/
theorem step_firstRequest (hinv : BoundaryInv s) (hph : s.log.phase = .cycleStart) (hen : s.cfg.arbEnable = false)
    (hscript : s.env.script = loggerOnEmulator :: rest) :
    ∃ t, step s = .next t ∧
      if s.cfg.respectReady then AtRequest s t rest .readyCheck .readDataReady
      else AtRequest s t rest .readMeas .readMeasured := by
  have ⟨_, _, hlog⟩ := hinv
  obtain ⟨-, hp⟩ := logInv_iff.mp hlog
  have hrd : s.log.rd = .idle := by rwa [hph] at hp
  have hk := cycleKept_consumeInput hinv hscript
  refine ⟨_, (step_cycleStart_bypassed (nextInput_script hscript) hph hrd hen).trans
    (afterClearance_next.mpr ⟨hrd, rfl⟩), ?_⟩
  rw [consumeInput_cfg]
  split <;> exact atRequest_withRequest hk rfl rfl (by simp) rfl rfl

/-- Settles O60: the first step starts the first request, and each request's run leads to the next one's start. -/
theorem cycleAgainstEmulatorYieldsItsRecord : Obligations.CycleAgainstEmulatorYieldsItsRecord := by
  intro s rest n hinv hph hen hn hscript
  suffices hrun : ∃ t, RunsTo n s t ∧ CycleDone s t ⟨measuredRecord s.cfg s.emu.pm25, s.cfg.recRaw, s.cfg.recMyst⟩ by
    obtain ⟨t, ht, hd⟩ := hrun
    exact ⟨t, ht.run_eq, hd.phase, hd.records, hd.logEvents, hd.emuEvents, hd.fsm, hd.txLen, hd.tickPending, hd.pm25⟩
  rcases hn with ⟨hready, rfl⟩ | ⟨hready, hsafe, rfl⟩
  case inl =>
    obtain ⟨t, ht, hat⟩ := step_firstRequest (rest := List.replicate 10 loggerOnEmulator ++ rest) hinv hph hen hscript
    simp only [hready, Bool.false_eq_true, if_false] at hat
    obtain ⟨t', ht', hdone⟩ := run_fromMeasured hat
    exact ⟨t', (runsTo_of_step ht).trans ht', hdone⟩
  case inr =>
    obtain ⟨t, ht, hat⟩ := step_firstRequest (rest := List.replicate 13 loggerOnEmulator ++ rest) hinv hph hen hscript
    simp only [hready, if_true] at hat
    obtain ⟨u, hu, hat⟩ := run_readyCheck (rest := List.replicate 10 loggerOnEmulator ++ rest) hat hsafe
    obtain ⟨t', ht', hdone⟩ := run_fromMeasured hat
    exact ⟨t', (runsTo_of_step ht).trans (hu.trans ht'), hdone⟩

end Sys2Proof.Laws
end


-- ==== Sys2Proof/Proofs/EventOutputs.lean ====
section
/-! The two event outputs over a step (R231, R236, R237): each only grows, and by one event at most. -/

namespace Sys2Proof.Laws

open Sys2Proof.Machine Sys2Proof.Safety

variable {s t : State}

/-- The event output `es` is left as it is, or one event is appended to it. `step_emuEvents` and
`TurnOutcome.appendsAtMostOne` tie it to the model's two outputs. -/
def AppendsAtMostOne (es es' : List Event) : Prop := es' = es ∨ ∃ ev, es' = es ++ [ev]

/-! ### The emulator's output (R138, R152) -/

/-- Of the commands only the fallback row raises, and it raises once (R138). -/
theorem exec_emuEvents {i : Instr} (h : exec i s = .next t) : AppendsAtMostOne s.emu.events t.emu.events := by
  obtain ⟨-, -, -, -, hev⟩ := exec_next h
  rw [hev]
  cases i with
  | unrecognized op => exact .inr ⟨_, rfl⟩
  | _ => exact .inl rfl

theorem writeReceived_emuEvents {bytes : List Byte} (h : writeReceived bytes s = .next t) :
    AppendsAtMostOne s.emu.events t.emu.events := by
  unfold writeReceived at h
  split at h
  · exact exec_emuEvents h
  · cases h; exact .inl rfl

/-- A read raises where it is premature (R152). -/
theorem busRead_emuEvents {k : Nat} (h : busRead k s = .next t) : AppendsAtMostOne s.emu.events t.emu.events := by
  obtain ⟨-, hev⟩ := busRead_fsm_events h
  split at hev
  · exact .inr ⟨_, hev⟩
  · exact .inl hev

/-- A turn of `EMU.TICK` raises nothing (R158). -/
theorem tickTurn_emuEvents (s : State) : (tickTurn s).emu.events = s.emu.events := by
  cases hp : s.emu.tickPending with
  | true => rw [tickTurn_pending hp]; rfl
  | false => rw [tickTurn_none hp]

/-- A turn of `LOG` gives the emulator one write or read at most, and so one event at most (R216). -/
theorem loggerTurn_emuEvents {d : LogDraw} (h : loggerTurn d s = .next t) :
    AppendsAtMostOne s.emu.events t.emu.events := by
  rcases loggerTurn_effect h with hframe | ⟨-, tx, -, u, hu, hw | ⟨k, hr⟩⟩
  · exact .inl (by rw [hframe, setLog_emu])
  · rw [hu]; exact writeReceived_emuEvents (s := issue tx s) hw
  · rw [hu]; exact busRead_emuEvents (s := issue tx s) hr

theorem step_emuEvents (hr : nextInput s ≠ .resetEmu) (h : step s = .next t) :
    AppendsAtMostOne s.emu.events t.emu.events := by
  cases hi : nextInput s with
  | cmdWrite addr bytes =>
    rw [step_cmdWrite hi] at h
    split at h
    · exact writeReceived_emuEvents (s := consumeInput s) h
    · cases h; exact .inl rfl
  | busRead addr k =>
    rw [step_busRead hi] at h
    split at h
    · exact busRead_emuEvents (s := consumeInput s) h
    · cases h; exact .inl rfl
  | tick =>
    rw [step_tick hi] at h
    cases h
    exact .inl (tickTurn_emuEvents (consumeInput s))
  | logger d =>
    rw [step_logger hi] at h
    exact loggerTurn_emuEvents (s := consumeInput s) h
  | resetEmu => exact absurd hi hr
  | resetLog =>
    rw [step_resetLog hi] at h
    cases h; exact .inl rfl

/-! ### The logger's output (R197, R211) -/

/-- One outcome of a turn reports, and it reports once. -/
theorem TurnOutcome.appendsAtMostOne {l l' : Log} (h : TurnOutcome l l') : AppendsAtMostOne l.events l'.events := by
  cases h with
  | quiet he | measRead _ _ _ _ he | rawRead _ _ _ _ he | recordEmitted _ _ _ _ _ _ _ _ he => exact .inl he
  | reported ev _ he => exact .inr ⟨ev, he⟩

/-- Settles O55: the emulator's output grows by its own event of the step, the logger's by its turn's report. -/
theorem atMostOneEventPerStep : Obligations.AtMostOneEventPerStep := by
  intro s t h
  exact ⟨fun hr => step_emuEvents hr h, fun hr => (step_outcome hr h).appendsAtMostOne⟩

end Sys2Proof.Laws
end


-- ==== Sys2Proof/Proofs/Resets.lean ====
section
/-! The units right after reset, and a reset as a step (R260 to R262). What holds no value is said once for any logger
and any index: a read of it faults. -/

namespace Sys2Proof.Laws

open Sys2Proof.Machine Sys2Proof.Safety

variable {l : Log}

/-! ### Reads of what holds no value (R25, R42, R43, R45) -/

/-- No byte of an empty buffer holds a value. -/
theorem readByte_nil {a : Nat} (h : a < 24) : readByte [] a = .fault .noValue := if_pos h

theorem logCmd_noValue (h : l.written.request = false) : logCmd l = .fault .noValue := if_neg (by simp [h])

theorem logNwords_noValue (h : l.written.request = false) : logNwords l = .fault .noValue := if_neg (by simp [h])

theorem logMeas_noValue (h : l.written.meas = false) : logMeas l = .fault .noValue := if_neg (by simp [h])

theorem logRaw_noValue (h : l.written.raw = false) : logRaw l = .fault .noValue := if_neg (by simp [h])

theorem logMyst_noValue (h : l.written.myst = false) : logMyst l = .fault .noValue := if_neg (by simp [h])

/-! ### The two units right after reset (R261, R262) -/

/-- Settles O47: the buffer is empty; every write is answered by the emulator's invariant, which holds at reset, and
every read as a premature one. -/
theorem emulatorReset : Obligations.EmulatorReset := by
  intro p
  have hwrite : ∀ bytes, ∃ t, writeReceived bytes (State.resetWith p) = .next t := fun bytes =>
    (writeReceived_keeps_emuInv bytes (emuInv_reset p)).imp fun _ ⟨ht, _⟩ => ht
  have hread : ∀ k, ∃ t, busRead k (State.resetWith p) = .next t := fun k => ⟨_, busRead_idle k rfl⟩
  exact ⟨rfl, rfl, fun _ => readByte_nil, rfl, rfl, rfl, hwrite, hread⟩

/-- Settles O48: every mark of a value is clear and the buffer is empty, so a read faults; the reader is idle in
`CYCLE_START`, so the first turn is the cycle start. -/
theorem loggerReset : Obligations.LoggerReset := fun _ =>
  ⟨rfl, rfl, rfl, rfl, logCmd_noValue rfl, logNwords_noValue rfl, fun _ => readByte_nil, rfl,
    logMeas_noValue rfl, logRaw_noValue rfl, logMyst_noValue rfl, rfl, rfl,
    fun d => loggerTurn_cycleStart d rfl rfl⟩

/-! ### A reset as a step (R260) -/

/-- Settles O49: each reset replaces its own unit's registers and nothing else. -/
theorem unitsResetIndependently : Obligations.UnitsResetIndependently := by
  intro s
  constructor
  · intro hi
    exact ⟨_, step_resetEmu hi, resetEmulator_emu (consumeInput s), rfl, rfl⟩
  · intro hi
    exact ⟨_, step_resetLog hi, resetLogger_log (consumeInput s), rfl, rfl⟩

end Sys2Proof.Laws
end


-- ==== Sys2Proof/Proofs/StartWithTick.lean ====
section
/-! `START_MEASUREMENT` with a tick pending (R130, R272): the counter goes to its baseline at once, stays there until the
tick is consumed, and moves on from there. -/

namespace Sys2Proof.Laws

open Sys2Proof.Machine Sys2Proof.Safety

variable {s t : State}

/-- A tick is consumed where `EMU.TICK` has its turn with one pending (R155). -/
theorem consumesTick_iff : consumesTick s = true ↔ nextInput s = .tick ∧ s.emu.tickPending = true := by
  cases hi : nextInput s <;> simp [consumesTick, hi]

/-- The step that consumes a tick clears its slot (R155). -/
theorem step_tickPending_of_consumesTick (hc : consumesTick s = true) (h : step s = .next t) :
    t.emu.tickPending = false := by
  obtain ⟨hi, hp⟩ := consumesTick_iff.mp hc
  rw [step_tick_pending hi hp] at h
  cases h
  rfl

/-- `START_MEASUREMENT` puts the counter to its baseline and leaves the parameters (R130). -/
theorem execStartMeasurement_next (h : exec .startMeasurement s = .next t) :
    t.emu.pm25 = s.cfg.pm25Baseline ∧ t.cfg = s.cfg := by
  obtain ⟨-, hresp, hpm, -⟩ := exec_next h
  exact ⟨hpm, hresp.cfg⟩

/-- Settles O23: a run that consumes no tick and restarts no counter leaves the counter at its baseline, so the tick
moves it on from there. -/
theorem startMeasurementWithTickPending : Obligations.StartMeasurementWithTickPending := by
  intro s t u v hinv hstart _ hrun hconsumes hstep
  obtain ⟨htpm, htcfg⟩ := execStartMeasurement_next hstart
  obtain ⟨-, hucfg, hupm⟩ := counterRun_pm25 hrun (exec_keeps_boundaryInv hinv hstart)
  have hpm : v.emu.pm25 = tickCounter s.cfg s.cfg.pm25Baseline := by
    calc v.emu.pm25
      _ = tickCounter u.cfg u.emu.pm25 := step_pm25_of_consumesTick hconsumes hstep
      _ = tickCounter s.cfg s.cfg.pm25Baseline := by
        rw [hucfg, htcfg, hupm, Function.iterate_zero_apply, htpm]
  refine ⟨step_tickPending_of_consumesTick hconsumes hstep, ?_⟩
  rw [hpm, tickCounter_toNat]

end Sys2Proof.Laws
end
